-- ==== Sys2Proof/Word.lean ====
section
/-! DEFINITION. The word types of the machine (00_scope.md R8, R9; 10_state.md R21, R25; 30_encoding.md R91). -/

namespace Sys2Proof

/-- A memory byte, a general register, a timer: 8 bits (20_memory.md R62, 10_state.md R21, R31). -/
abbrev Byte := BitVec 8

/-- `I`, `pc`, a stack slot, an instruction word: 16 bits (10_state.md R25, R28, R29; 30_encoding.md R90). -/
abbrev Word := BitVec 16

/-- The immediate address field `nnn`: 12 bits (30_encoding.md R91). -/
abbrev Addr12 := BitVec 12

/-- A 4-bit field of an instruction word: "a 4-bit field of an opcode" (00_scope.md R9). -/
abbrev Nibble := BitVec 4

/-- A register number 0..15, an index of the register file (10_state.md R21, 30_encoding.md R93). -/
abbrev Reg := Fin 16

/-- A key number 0..15, a bit position of the key mask (10_state.md R33, 60_exceptions.md R254). -/
abbrev Key := Fin 16

end Sys2Proof
end

