-- ==== Sys2Proof/Config.lean ====
section
/-! DEFINITION. The parameters of the machine (00_scope.md R6) and its one free value (R7, `rand_byte`).
The other two configuration tables of R7 stand where a repair can reach them: `FONT` is `Machine.Font.table`
(Sys2Proof/Machine/Font.lean) and `OPMAP` is `opmap` with `Instr.row` (Sys2Proof/Decode.lean). -/

namespace Sys2Proof.Config

/-- `MEM_SIZE`: 4096 bytes, addresses `0x000`..`0xFFF` (00_scope.md R6). -/
abbrev memSize : Nat := 0x1000

/-- `PROG_BASE`: load address and first program address (00_scope.md R6). -/
abbrev progBase : Nat := 0x200

/-- `PROG_MAX`: the largest program image, 3584 bytes (00_scope.md R6). -/
abbrev progMax : Nat := 0x1000 - 0x200

/-- `rand_byte` (42_alu.md R162, 92_eei_decisions.md D19): the byte the external randomness source delivers to the
`k`-th executed RND. A FREE VALUE: no body, so nothing can be proved of which byte it is (log 18). -/
opaque randByte : Nat → Byte

end Sys2Proof.Config
end

