-- ==== Sys2Proof/Syntax.lean ====
section
/-! DEFINITION. The 34 instructions, one constructor per row of spec/opcode_table.json (30_encoding.md R95). -/

namespace Sys2Proof

/-- An instruction with its operand fields (30_encoding.md R94, R95). Operands carry their range in their type:
a register number is `Fin 16`, `kk` 8 bits, `nnn` 12 bits, the row count `n` 4 bits (R91, R93).
SHR and SHL keep the field `y`, which they ignore (R98). A word of no row is no instruction: see `Decoded.unknown`. -/
inductive Instr where
  /-- `00E0` CLS: clear screen (44_display.md R191). -/
  | cls
  /-- `00EE` RET: return from subroutine (41_control.md R136). -/
  | ret
  /-- `1nnn` JP nnn: jump (41_control.md R137). -/
  | jp (nnn : Addr12)
  /-- `2nnn` CALL nnn: call subroutine (41_control.md R138). -/
  | call (nnn : Addr12)
  /-- `3xkk` SE Vx, kk: skip if equal (41_control.md R139). -/
  | seImm (x : Reg) (kk : Byte)
  /-- `4xkk` SNE Vx, kk: skip if not equal (41_control.md R140). -/
  | sneImm (x : Reg) (kk : Byte)
  /-- `5xy0` SE Vx, Vy: skip if registers equal (41_control.md R141). -/
  | seReg (x y : Reg)
  /-- `6xkk` LD Vx, kk: move immediate (42_alu.md R151). -/
  | ldImm (x : Reg) (kk : Byte)
  /-- `7xkk` ADD Vx, kk: add immediate (42_alu.md R152). -/
  | addImm (x : Reg) (kk : Byte)
  /-- `8xy0` LD Vx, Vy: assign (42_alu.md R153). -/
  | ldReg (x y : Reg)
  /-- `8xy1` OR Vx, Vy (42_alu.md R154). -/
  | orReg (x y : Reg)
  /-- `8xy2` AND Vx, Vy (42_alu.md R155). -/
  | andReg (x y : Reg)
  /-- `8xy3` XOR Vx, Vy (42_alu.md R156). -/
  | xorReg (x y : Reg)
  /-- `8xy4` ADD Vx, Vy: add with carry out (42_alu.md R157). -/
  | addReg (x y : Reg)
  /-- `8xy5` SUB Vx, Vy (42_alu.md R158). -/
  | sub (x y : Reg)
  /-- `8xy6` SHR Vx: shift right by one; `y` is ignored (42_alu.md R159). -/
  | shr (x y : Reg)
  /-- `8xy7` SUBN Vx, Vy: reverse subtract (42_alu.md R160). -/
  | subn (x y : Reg)
  /-- `8xyE` SHL Vx: shift left by one; `y` is ignored (42_alu.md R161). -/
  | shl (x y : Reg)
  /-- `9xy0` SNE Vx, Vy: skip if registers differ (41_control.md R142). -/
  | sneReg (x y : Reg)
  /-- `Annn` LD I, nnn: set index (43_index_memory.md R170). -/
  | ldI (nnn : Addr12)
  /-- `Bnnn` JP V0, nnn: jump with offset (41_control.md R143). -/
  | jpV0 (nnn : Addr12)
  /-- `Cxkk` RND Vx, kk: masked random byte (42_alu.md R162). -/
  | rnd (x : Reg) (kk : Byte)
  /-- `Dxyn` DRW Vx, Vy, n: draw sprite (44_display.md R192). -/
  | drw (x y : Reg) (n : Nibble)
  /-- `Ex9E` SKP Vx: skip if key pressed (45_keypad_timers.md R205). -/
  | skp (x : Reg)
  /-- `ExA1` SKNP Vx: skip if key not pressed (45_keypad_timers.md R206). -/
  | sknp (x : Reg)
  /-- `Fx07` LD Vx, DT: read the delay timer (45_keypad_timers.md R208). -/
  | ldVxDT (x : Reg)
  /-- `Fx0A` LD Vx, K: wait for a key press (45_keypad_timers.md R211). -/
  | ldVxK (x : Reg)
  /-- `Fx15` LD DT, Vx: set the delay timer (45_keypad_timers.md R209). -/
  | ldDTVx (x : Reg)
  /-- `Fx18` LD ST, Vx: set the sound timer (45_keypad_timers.md R210). -/
  | ldSTVx (x : Reg)
  /-- `Fx1E` ADD I, Vx: add register to index (43_index_memory.md R171). -/
  | addI (x : Reg)
  /-- `Fx29` LD F, Vx: address of a font glyph (43_index_memory.md R172). -/
  | ldF (x : Reg)
  /-- `Fx33` LD B, Vx: store BCD (43_index_memory.md R173). -/
  | ldB (x : Reg)
  /-- `Fx55` LD [I], Vx: register dump (43_index_memory.md R174). -/
  | ldMemVx (x : Reg)
  /-- `Fx65` LD Vx, [I]: register load (43_index_memory.md R175). -/
  | ldVxMem (x : Reg)
  deriving DecidableEq, Repr

end Sys2Proof
end

