-- ==== Sys2Proof/WellFormed.lean ====
section
/-! DEFINITION. Well-formedness of program text (70_reset_and_hazards.md R295, 30_encoding.md R109).
The range of every operand field is carried by its type (Syntax.lean), so every `Instr` has an encoding. What is left to
check are the duties the spec lays on a well-formed PROGRAM and that can be read off its text. The core checks none of them
(10_state.md R27), so no meaning and no decoder below asks for them: the duties that depend on the state stand in Safety.lean. -/

namespace Sys2Proof

/-- The absolute transfer target written in an instruction, where it has one (JP nnn, CALL nnn). -/
def Instr.staticTarget : Instr → Option Addr12
  | .jp nnn => some nnn
  | .call nnn => some nnn
  | .cls | .ret | .seImm _ _ | .sneImm _ _ | .seReg _ _ | .ldImm _ _ | .addImm _ _ | .ldReg _ _ | .orReg _ _ | .andReg _ _
  | .xorReg _ _ | .addReg _ _ | .sub _ _ | .shr _ _ | .subn _ _ | .shl _ _ | .sneReg _ _ | .ldI _ | .jpV0 _ | .rnd _ _
  | .drw _ _ _ | .skp _ | .sknp _ | .ldVxDT _ | .ldVxK _ | .ldDTVx _ | .ldSTVx _ | .addI _ | .ldF _ | .ldB _ | .ldMemVx _
  | .ldVxMem _ => none

/-- R295, first duty, evenness: a jump or call target is even. -/
def targetEven (t : Addr12) : Bool := t.toNat % 2 == 0

/-- R295, first duty, lower bound: a target is not below the program region. -/
def targetInProgram (t : Addr12) : Bool := decide (Config.progBase ≤ t.toNat)

/-- R295, first duty, upper bound: the word at the target can be fetched (`0x200`..`0xFFE`). -/
def targetFetchable (t : Addr12) : Bool := decide (t.toNat + 1 < Config.memSize)

/-- The duties of R295 that an instruction shows in its text. -/
def Instr.wellFormed (i : Instr) : Bool :=
  match i.staticTarget with
  | some t => targetEven t && targetInProgram t && targetFetchable t
  | none => true

/-- R109: an image of at most 3584 bytes. -/
def imageWellFormed (bytes : List Byte) : Bool := decide (bytes.length ≤ Config.progMax)

end Sys2Proof
end

