-- ==== Sys2Proof/Decode.lean ====
section
/-! DEFINITION. Instruction encoding: the fields (30_encoding.md R91), the decoder (R94, R96), the encoder from the format
table (R92), and the opcode map `OPMAP` (R95). The numeric values are the spec's decision D2, from general knowledge (log 1);
the strictness of the sub-selectors is its decision D3 (log 2). -/

namespace Sys2Proof

/-! ### Fields of a word (R91) -/

/-- A 4-bit field as a register number (R93). -/
def regOfNibble (b : Nibble) : Reg := ⟨b.toNat, b.isLt⟩

/-- A register number as a 4-bit field (R93). -/
def nibbleOfReg (r : Reg) : Nibble := BitVec.ofNat 4 r.val

/-- `o = w[15:12]`, the family selector. -/
def fieldO (w : Word) : Nibble := w.extractLsb' 12 4

/-- `x = w[11:8]`. -/
def fieldX (w : Word) : Reg := regOfNibble (w.extractLsb' 8 4)

/-- `y = w[7:4]`. -/
def fieldY (w : Word) : Reg := regOfNibble (w.extractLsb' 4 4)

/-- `n = w[3:0]`. -/
def fieldN (w : Word) : Nibble := w.extractLsb' 0 4

/-- `kk = w[7:0]`. -/
def fieldKK (w : Word) : Byte := w.extractLsb' 0 8

/-- `nnn = w[11:0]`. -/
def fieldNNN (w : Word) : Addr12 := w.extractLsb' 0 12

/-! ### The decoder -/

/-- R94: a word decodes to an instruction or to `Unknown(word)`; decoding never fails. -/
inductive Decoded where
  /-- One of the 34 instructions with its operand fields. -/
  | known (i : Instr)
  /-- `Unknown(w)`: "any undecodable bit pattern" (R94, R104). A normal outcome that executes as a reported no-op. -/
  | unknown (w : Word)
  deriving DecidableEq, Repr

/-- The family `o = 8` of R96: the low nibble selects. -/
def decodeFamily8 (w : Word) : Decoded :=
  match fieldN w with
  | 0x0#4 => .known (.ldReg (fieldX w) (fieldY w))
  | 0x1#4 => .known (.orReg (fieldX w) (fieldY w))
  | 0x2#4 => .known (.andReg (fieldX w) (fieldY w))
  | 0x3#4 => .known (.xorReg (fieldX w) (fieldY w))
  | 0x4#4 => .known (.addReg (fieldX w) (fieldY w))
  | 0x5#4 => .known (.sub (fieldX w) (fieldY w))
  | 0x6#4 => .known (.shr (fieldX w) (fieldY w))
  | 0x7#4 => .known (.subn (fieldX w) (fieldY w))
  | 0xE#4 => .known (.shl (fieldX w) (fieldY w))
  | _ => .unknown w

/-- The family `o = E` of R96: the low byte selects. -/
def decodeFamilyE (w : Word) : Decoded :=
  match fieldKK w with
  | 0x9E#8 => .known (.skp (fieldX w))
  | 0xA1#8 => .known (.sknp (fieldX w))
  | _ => .unknown w

/-- The family `o = F` of R96: the low byte selects. -/
def decodeFamilyF (w : Word) : Decoded :=
  match fieldKK w with
  | 0x07#8 => .known (.ldVxDT (fieldX w))
  | 0x0A#8 => .known (.ldVxK (fieldX w))
  | 0x15#8 => .known (.ldDTVx (fieldX w))
  | 0x18#8 => .known (.ldSTVx (fieldX w))
  | 0x1E#8 => .known (.addI (fieldX w))
  | 0x29#8 => .known (.ldF (fieldX w))
  | 0x33#8 => .known (.ldB (fieldX w))
  | 0x55#8 => .known (.ldMemVx (fieldX w))
  | 0x65#8 => .known (.ldVxMem (fieldX w))
  | _ => .unknown w

/-- The families `o = 0`, `5` and `9` of R96 test the rest of the word (R97). -/
def decodeFamily0 (w : Word) : Decoded :=
  if w = 0x00E0#16 then .known .cls else if w = 0x00EE#16 then .known .ret else .unknown w

/-- R96, the decode algorithm. A pure function of the word, total (R94). -/
def decode (w : Word) : Decoded :=
  match fieldO w with
  | 0x0#4 => decodeFamily0 w
  | 0x1#4 => .known (.jp (fieldNNN w))
  | 0x2#4 => .known (.call (fieldNNN w))
  | 0x3#4 => .known (.seImm (fieldX w) (fieldKK w))
  | 0x4#4 => .known (.sneImm (fieldX w) (fieldKK w))
  | 0x5#4 => if fieldN w = 0 then .known (.seReg (fieldX w) (fieldY w)) else .unknown w
  | 0x6#4 => .known (.ldImm (fieldX w) (fieldKK w))
  | 0x7#4 => .known (.addImm (fieldX w) (fieldKK w))
  | 0x8#4 => decodeFamily8 w
  | 0x9#4 => if fieldN w = 0 then .known (.sneReg (fieldX w) (fieldY w)) else .unknown w
  | 0xA#4 => .known (.ldI (fieldNNN w))
  | 0xB#4 => .known (.jpV0 (fieldNNN w))
  | 0xC#4 => .known (.rnd (fieldX w) (fieldKK w))
  | 0xD#4 => .known (.drw (fieldX w) (fieldY w) (fieldN w))
  | 0xE#4 => decodeFamilyE w
  | _ => decodeFamilyF w

/-! ### Bytes (20_memory.md R64, R68: the high byte stands at the lower address) -/

/-- The word of two bytes in memory order: `mem[a] ++ mem[a+1]`. -/
def wordOfBytes (hi lo : Byte) : Word := hi ++ lo

/-- `w[15:8]`, the byte at the lower address. -/
def highByte (w : Word) : Byte := w.extractLsb' 8 8

/-- `w[7:0]`, the byte at the higher address. -/
def lowByte (w : Word) : Byte := w.extractLsb' 0 8

/-- What the decoder reads off the front of a byte string. -/
inductive BytesDecoded where
  /-- The first word, decoded, and the bytes after it. -/
  | word (d : Decoded) (rest : List Byte)
  /-- Fewer than two bytes: no instruction word stands here (R90: every instruction is one 16-bit word). -/
  | truncated
  deriving DecidableEq, Repr

/-- The decoder on a byte string, total: big-endian words (30_encoding.md R90). -/
def decodeBytes : List Byte → BytesDecoded
  | hi :: lo :: rest => .word (decode (wordOfBytes hi lo)) rest
  | [_] => .truncated
  | [] => .truncated

/-- The instruction the decoder reads from an instruction whose bits are `w`, bit 0 the least significant bit of its one
16-bit word; bits at or above `nbits` are zero. The word is laid out as the hardware stores it and given to `decodeBytes`. -/
def decodeTableWord (nbits w : Nat) : Option Instr :=
  let word : Word := BitVec.ofNat 16 (w % 2 ^ nbits)
  match decodeBytes [highByte word, lowByte word] with
  | .word (.known i) _ => some i
  | .word (.unknown _) _ => none
  | .truncated => none

/-! ### The encoder, from the format table R92 -/

/-- Format `NNN`: `o ++ nnn`. -/
def formatNNN (o : Nibble) (nnn : Addr12) : Word := o ++ nnn

/-- Formats `XKK` and `XSUB`: `o ++ x ++ kk`. -/
def formatXKK (o : Nibble) (x : Reg) (kk : Byte) : Word := o ++ nibbleOfReg x ++ kk

/-- Formats `XY` and `XYN`: `o ++ x ++ y ++ n`. -/
def formatXYN (o : Nibble) (x y : Reg) (n : Nibble) : Word := o ++ nibbleOfReg x ++ nibbleOfReg y ++ n

/-- The word of an instruction (R92, R95). -/
def encode : Instr → Word
  | .cls => 0x00E0
  | .ret => 0x00EE
  | .jp nnn => formatNNN 0x1 nnn
  | .call nnn => formatNNN 0x2 nnn
  | .seImm x kk => formatXKK 0x3 x kk
  | .sneImm x kk => formatXKK 0x4 x kk
  | .seReg x y => formatXYN 0x5 x y 0x0
  | .ldImm x kk => formatXKK 0x6 x kk
  | .addImm x kk => formatXKK 0x7 x kk
  | .ldReg x y => formatXYN 0x8 x y 0x0
  | .orReg x y => formatXYN 0x8 x y 0x1
  | .andReg x y => formatXYN 0x8 x y 0x2
  | .xorReg x y => formatXYN 0x8 x y 0x3
  | .addReg x y => formatXYN 0x8 x y 0x4
  | .sub x y => formatXYN 0x8 x y 0x5
  | .shr x y => formatXYN 0x8 x y 0x6
  | .subn x y => formatXYN 0x8 x y 0x7
  | .shl x y => formatXYN 0x8 x y 0xE
  | .sneReg x y => formatXYN 0x9 x y 0x0
  | .ldI nnn => formatNNN 0xA nnn
  | .jpV0 nnn => formatNNN 0xB nnn
  | .rnd x kk => formatXKK 0xC x kk
  | .drw x y n => formatXYN 0xD x y n
  | .skp x => formatXKK 0xE x 0x9E
  | .sknp x => formatXKK 0xE x 0xA1
  | .ldVxDT x => formatXKK 0xF x 0x07
  | .ldVxK x => formatXKK 0xF x 0x0A
  | .ldDTVx x => formatXKK 0xF x 0x15
  | .ldSTVx x => formatXKK 0xF x 0x18
  | .addI x => formatXKK 0xF x 0x1E
  | .ldF x => formatXKK 0xF x 0x29
  | .ldB x => formatXKK 0xF x 0x33
  | .ldMemVx x => formatXKK 0xF x 0x55
  | .ldVxMem x => formatXKK 0xF x 0x65

/-! ### The opcode map `OPMAP` (R95) -/

/-- A row of the table R95: `w` selects the row exactly when `w & mask = match` (here `pattern`). -/
structure OpRow where
  /-- The row's mnemonic as spec/opcode_table.json spells it. -/
  mnemonic : String
  /-- The column *match*. -/
  pattern : Word
  /-- The column *mask*. -/
  mask : Word
  deriving DecidableEq, Repr

/-- The word selects the row (R95). -/
def OpRow.selects (r : OpRow) (w : Word) : Bool := w &&& r.mask == r.pattern

/-- The row of R95 an instruction belongs to. -/
def Instr.row : Instr → OpRow
  | .cls => ⟨"CLS", 0x00E0, 0xFFFF⟩
  | .ret => ⟨"RET", 0x00EE, 0xFFFF⟩
  | .jp _ => ⟨"JP_nnn", 0x1000, 0xF000⟩
  | .call _ => ⟨"CALL_nnn", 0x2000, 0xF000⟩
  | .seImm _ _ => ⟨"SE_Vx__kk", 0x3000, 0xF000⟩
  | .sneImm _ _ => ⟨"SNE_Vx__kk", 0x4000, 0xF000⟩
  | .seReg _ _ => ⟨"SE_Vx__Vy", 0x5000, 0xF00F⟩
  | .ldImm _ _ => ⟨"LD_Vx__kk", 0x6000, 0xF000⟩
  | .addImm _ _ => ⟨"ADD_Vx__kk", 0x7000, 0xF000⟩
  | .ldReg _ _ => ⟨"LD_Vx__Vy", 0x8000, 0xF00F⟩
  | .orReg _ _ => ⟨"OR_Vx__Vy", 0x8001, 0xF00F⟩
  | .andReg _ _ => ⟨"AND_Vx__Vy", 0x8002, 0xF00F⟩
  | .xorReg _ _ => ⟨"XOR_Vx__Vy", 0x8003, 0xF00F⟩
  | .addReg _ _ => ⟨"ADD_Vx__Vy", 0x8004, 0xF00F⟩
  | .sub _ _ => ⟨"SUB_Vx__Vy", 0x8005, 0xF00F⟩
  | .shr _ _ => ⟨"SHR_Vx", 0x8006, 0xF00F⟩
  | .subn _ _ => ⟨"SUBN_Vx__Vy", 0x8007, 0xF00F⟩
  | .shl _ _ => ⟨"SHL_Vx", 0x800E, 0xF00F⟩
  | .sneReg _ _ => ⟨"SNE_Vx__Vy", 0x9000, 0xF00F⟩
  | .ldI _ => ⟨"LD_I__nnn", 0xA000, 0xF000⟩
  | .jpV0 _ => ⟨"JP_V0__nnn", 0xB000, 0xF000⟩
  | .rnd _ _ => ⟨"RND_Vx__kk", 0xC000, 0xF000⟩
  | .drw _ _ _ => ⟨"DRW_Vx__Vy__n", 0xD000, 0xF000⟩
  | .skp _ => ⟨"SKP_Vx", 0xE09E, 0xF0FF⟩
  | .sknp _ => ⟨"SKNP_Vx", 0xE0A1, 0xF0FF⟩
  | .ldVxDT _ => ⟨"LD_Vx__DT", 0xF007, 0xF0FF⟩
  | .ldVxK _ => ⟨"LD_Vx__K", 0xF00A, 0xF0FF⟩
  | .ldDTVx _ => ⟨"LD_DT__Vx", 0xF015, 0xF0FF⟩
  | .ldSTVx _ => ⟨"LD_ST__Vx", 0xF018, 0xF0FF⟩
  | .addI _ => ⟨"ADD_I__Vx", 0xF01E, 0xF0FF⟩
  | .ldF _ => ⟨"LD_F__Vx", 0xF029, 0xF0FF⟩
  | .ldB _ => ⟨"LD_B__Vx", 0xF033, 0xF0FF⟩
  | .ldMemVx _ => ⟨"LD__I___Vx", 0xF055, 0xF0FF⟩
  | .ldVxMem _ => ⟨"LD_Vx___I", 0xF065, 0xF0FF⟩

/-- One instruction of each row, in the order of spec/opcode_table.json. -/
def rowSamples : List Instr :=
  [.cls, .ret, .jp 0, .call 0, .seImm 0 0, .sneImm 0 0, .seReg 0 0, .ldImm 0 0, .addImm 0 0] ++
  [.ldReg 0 0, .orReg 0 0, .andReg 0 0, .xorReg 0 0, .addReg 0 0, .sub 0 0, .shr 0 0, .subn 0 0, .shl 0 0] ++
  [.sneReg 0 0, .ldI 0, .jpV0 0, .rnd 0 0, .drw 0 0 0, .skp 0, .sknp 0] ++
  [.ldVxDT 0, .ldVxK 0, .ldDTVx 0, .ldSTVx 0, .addI 0, .ldF 0, .ldB 0, .ldMemVx 0, .ldVxMem 0]

/-- `OPMAP`: the 34 rows of R95. -/
def opmap : List OpRow := rowSamples.map Instr.row

end Sys2Proof
end

