-- ==== Sys2Proof/Machine/State.lean ====
section
/-! DEFINITION. The state of the core as plain data: exactly the fields of 10_state.md R20, and the model's own counter of
random bytes taken (log 18). Its reset value is the table of R50. -/

namespace Sys2Proof.Machine

/-- The three fatal faults (60_exceptions.md R230). A fault is RAISED inside a step and TAKEN by `takeFault`: the step answers a
NEXT state whose `runState` is `halted` (R236), so no step of this model ends in `Host.Outcome.fault`. That is safe: the state
after the fault is the one the spec gives (log 19). -/
inductive Fault where
  /-- Raised by CALL with `depth = 16` (R231). Safe: the spec names it. -/
  | stackOverflow
  /-- Raised by RET with `depth = 0` (R232). Safe: the spec names it. -/
  | stackUnderflow
  /-- Raised by the fetch, DRW, LD B, LD [I] and LD Vx,[I] for an address above `0xFFF`; `addr` is the lowest offending
  address (R233). Safe: the spec names it. -/
  | outOfBounds (addr : Nat)
  deriving DecidableEq, Repr

/-- Why the model gives an instruction no meaning. -/
inductive Refusal where
  /-- An arm of `exec` whose instruction has no meaning yet, by its mnemonic. No arm of this model answers it. Safe: nothing
  can be proved of such a step. -/
  | notModelled (mnemonic : String)
  deriving DecidableEq, Repr

/-- The payload of `Halted` (10_state.md R43): the kind, with `fault_addr` where the kind has one, and `fault_pc`. -/
structure FaultRecord where
  /-- `kind` and `fault_addr`. -/
  fault : Fault
  /-- `fault_pc`: `pc` at the start of the faulting step. -/
  faultPc : Word
  deriving DecidableEq, Repr

/-- `run_state`, the only control register (10_state.md R40). -/
inductive RunState where
  /-- No program is loaded; the state after reset. -/
  | stopped
  /-- A program is installed and no step has run. -/
  | loaded
  /-- Steps execute instructions. -/
  | running
  /-- Suspended by `Fx0A`; `x` is the register the key code goes to (R42). -/
  | waitingForKey (x : Reg)
  /-- Terminal; carries the fault that caused it (R43). -/
  | halted (r : FaultRecord)
  deriving DecidableEq, Repr

/-- Memory as a list of (address, byte) cells. Canonical form: `Memory.wf`; what an unlisted address reads as: `unlistedByte`. -/
abbrev Memory := List Host.Cell

/-- The display matrix: 64 columns of 32 pixels, `true` is a set pixel (10_state.md R34, 44_display.md R190). -/
abbrev Display := Vector (Vector Bool 32) 64

/-- `MachineState` (10_state.md R20). -/
structure State where
  /-- `mem`, 4096 bytes (R35). -/
  mem : Memory
  /-- `V[0..15]`; `V[15]` is the flag register `VF` (R21, R22). -/
  v : Vector Byte 16
  /-- `I`, the index register (R28). -/
  i : Word
  /-- `pc`, the program counter (R25). -/
  pc : Word
  /-- `stack[0..15]`, the return addresses (R29). -/
  stack : Vector Word 16
  /-- `depth`, 0..16 (R30). -/
  depth : Fin 17
  /-- `DT`, the delay timer (R31). -/
  dt : Byte
  /-- `ST`, the sound timer (R32). -/
  st : Byte
  /-- `keypad`, bit `k` is 1 while key `k` is pressed (R33). -/
  keypad : BitVec 16
  /-- `disp[cx][cy]` (R34). -/
  disp : Display
  /-- `run_state` (R40). -/
  runState : RunState
  /-- `program_length` (R44). -/
  programLength : Nat
  /-- THE MODEL'S OWN: how many random bytes RND has taken, the index of the next free value (log 18). -/
  draws : Nat
  deriving DecidableEq, Repr

/-- A clear display (R50). -/
def blankDisplay : Display := Vector.replicate 64 (Vector.replicate 32 false)

/-- The state at creation and after `reset` (R50; 70_reset_and_hazards.md R280, R283). Memory lists nothing: it reads as the font
table and zeros. The zeros and `pc = 0x200` are the spec's decisions D10, D11, D27, not its source's words (log 9). -/
def State.reset : State where
  mem := []
  v := Vector.replicate 16 0
  i := 0
  pc := 0x0200
  stack := Vector.replicate 16 0
  depth := 0
  dt := 0
  st := 0
  keypad := 0
  disp := blankDisplay
  runState := .stopped
  programLength := 0
  draws := 0

/-- What an instruction's meaning answers. -/
abbrev Result := Host.Outcome State Fault Refusal

end Sys2Proof.Machine
end

