-- ==== Sys2Proof/Machine/Ops.lean ====
section
/-! DEFINITION. The named operations over memory, the program counter, the call stack and the run state, with taking a fault. -/

namespace Sys2Proof.Machine

/-! ### Memory (20_memory.md) -/

/-- What an address no cell lists reads as: the font table at `0x000`..`0x04F`, `0x00` elsewhere, the reset contents
(10_state.md R50, 20_memory.md R80; decisions D10, D11, log 9, log 10). -/
def unlistedByte (a : Nat) : Byte := Font.table.getD a 0

/-- The byte `mem[a]`: the one read of one byte that everything else is said through. -/
def byteAt : Memory → Nat → Byte
  | [], a => unlistedByte a
  | (k, b) :: rest, a => if k = a then b else byteAt rest a

/-- Put a cell into a list that does not list its address, keeping addresses rising. -/
def insertCell (a : Nat) (b : Byte) : Memory → Memory
  | [] => [(a, b)]
  | (k, c) :: rest => if a < k then (a, b) :: (k, c) :: rest else (k, c) :: insertCell a b rest

/-- The memory with no cell for `a`. -/
def eraseCell (a : Nat) (m : Memory) : Memory := m.filter (fun c => c.1 != a)

/-- `mem[a] <- b`, in canonical form: a byte equal to what the unlisted address reads as is not listed. -/
def setByte (m : Memory) (a : Nat) (b : Byte) : Memory :=
  if b = unlistedByte a then eraseCell a m else insertCell a b (eraseCell a m)

/-- `mem[a], mem[a+1], ... <- bs`, ascending (20_memory.md R70). -/
def setBytes (m : Memory) (a : Nat) : List Byte → Memory
  | [] => m
  | b :: bs => setBytes (setByte m a b) (a + 1) bs

/-- The bytes `mem[a], ..., mem[a+n−1]`, ascending. -/
def bytesFrom (m : Memory) (a : Nat) : Nat → List Byte
  | 0 => []
  | n + 1 => byteAt m a :: bytesFrom m (a + 1) n

/-- The canonical form of memory: addresses strictly rising and inside the 4096 bytes, and no cell that says what its unlisted
address reads as. -/
abbrev Memory.wf (m : Memory) : Prop :=
  m.Pairwise (fun c d => c.1 < d.1) ∧ ∀ c ∈ m, c.1 < Config.memSize ∧ c.2 ≠ unlistedByte c.1

/-- All of the `n` addresses `a`..`a+n−1` exist. Addresses are unbounded integers and never wrap (R66, R67; decision D8, log 7). -/
def inBounds (a n : Nat) : Bool := decide (n = 0 ∨ a + n ≤ Config.memSize)

/-- The fault of an access that leaves memory: it records the lowest offending address (60_exceptions.md R233). -/
def boundsFault (a : Nat) : Fault := .outOfBounds (max a Config.memSize)

/-- `n` reads of one byte at ascending addresses, every address checked first (R67). `MemRead(a, 1)` of R63 is the case `n = 1`. -/
def readBytes (a n : Nat) (s : State) : Except Fault (List Byte) :=
  if inBounds a n then .ok (bytesFrom s.mem a n) else .error (boundsFault a)

/-- `MemRead(a, 2)`: `mem[a] ++ mem[a+1]`, big-endian (R64). -/
def readWord (a : Nat) (s : State) : Except Fault Word :=
  if inBounds a 2 then .ok (byteAt s.mem a ++ byteAt s.mem (a + 1)) else .error (boundsFault a)

/-- Writes of one byte at ascending addresses, every address checked before the first write (R67, 60_exceptions.md R237).
`MemWrite(a, 1, v)` of R65 is the case of one byte. -/
def writeBytes (a : Nat) (bs : List Byte) (s : State) : Except Fault State :=
  if inBounds a bs.length then .ok { s with mem := setBytes s.mem a bs } else .error (boundsFault a)

/-! ### The program counter (10_state.md R25, R26) -/

/-- `npc = (pc + 2) mod 2^16`, the address of the following word (40_step_cycle.md R123; 16-bit arithmetic D7, log 6). -/
def npc (s : State) : Word := s.pc + 2

/-- The default end of an instruction: `pc <- npc` (40_step_cycle.md R122). -/
def advance (s : State) : State := { s with pc := npc s }

/-- `pc <- t`; no target is checked (41_control.md R135; decision D6, log 5). -/
def jumpTo (t : Word) (s : State) : State := { s with pc := t }

/-- The end of a skip: `pc <- (npc + 2) mod 2^16` where the condition holds, else `pc <- npc` (10_state.md R26, 41_control.md R144). -/
def skipIf (c : Bool) (s : State) : State := jumpTo (if c then npc s + 2 else npc s) s

/-! ### The call stack (10_state.md R29, R30) -/

/-- Push a return address; StackOverflow when 16 are held (60_exceptions.md R231). -/
def pushReturn (a : Word) (s : State) : Except Fault State :=
  if h : s.depth.val = 16 then .error .stackOverflow
  else .ok { s with
    stack := s.stack.set s.depth.val a (by have := s.depth.isLt; omega)
    depth := ⟨s.depth.val + 1, by have := s.depth.isLt; omega⟩ }

/-- Pop the newest return address into `pc`; StackUnderflow when none is held (60_exceptions.md R232). The slot keeps its value,
which nothing can read (decision D27, log 26). -/
def popReturn (s : State) : Except Fault State :=
  if h : s.depth.val = 0 then .error .stackUnderflow
  else .ok { s with
    pc := s.stack[s.depth.val - 1]'(by have := s.depth.isLt; omega)
    depth := ⟨s.depth.val - 1, by have := s.depth.isLt; omega⟩ }

/-! ### Taking a fault, and leaving the halt -/

/-- Fault entry (60_exceptions.md R236, R237): `s` is the state the step started its cycle with, so every effect of the step is
discarded; `run_state <- Halted((kind, fault_pc, fault_addr))`. No other register saves anything and control goes nowhere. -/
def takeFault (f : Fault) (s : State) : State := { s with runState := .halted ⟨f, s.pc⟩ }

/-- The end of an instruction that can raise a fault: all of its effects, or the fault entry (40_step_cycle.md R126). -/
def commit (s : State) : Except Fault State → Result
  | .ok t => .next t
  | .error f => .next (takeFault f s)

/-- `reset()` (70_reset_and_hazards.md R280), the machine's only way out of `Halted` (60_exceptions.md R239): there is no return from
a fault. Every field of R50 takes its reset value; the model's own index of free values goes on, so that the bytes drawn after
a reset are not those drawn before it (log 18). -/
def resetMachine (s : State) : State := { State.reset with draws := s.draws }

/-- The numeric labels of R234: 1, 2, 3. -/
def Fault.causeCode : Fault → Nat
  | .stackOverflow => 1
  | .stackUnderflow => 2
  | .outOfBounds _ => 3

/-- `fault_addr`, absent but for OutOfBounds (10_state.md R43). -/
def Fault.addr : Fault → Option Nat
  | .stackOverflow => none
  | .stackUnderflow => none
  | .outOfBounds a => some a

end Sys2Proof.Machine
end

