-- ==== Sys2Proof/Machine/Operands.lean ====
section
/-! DEFINITION. Operand forms: registers, immediates, the index register as a base, the key mask (30_encoding.md R93, 43_index_memory.md R176). -/

namespace Sys2Proof.Machine

/-- `V[r]`. -/
def readV (r : Reg) (s : State) : Byte := s.v[r.val]

/-- `V[r] <- b`. -/
def writeV (r : Reg) (b : Byte) (s : State) : State := { s with v := s.v.set r.val b }

/-- The flag register `VF` is register 15 (10_state.md R22; conflict C1, decision D4, log 3). -/
def flagReg : Reg := 15

/-- `zext_16` of a byte. -/
def zextByte (b : Byte) : Word := b.setWidth 16

/-- `zext_16(nnn)` (30_encoding.md R93). -/
def zextAddr (nnn : Addr12) : Word := nnn.setWidth 16

/-- The base of every data access: `I` as an unbounded integer (20_memory.md R66). -/
def base (s : State) : Nat := s.i.toNat

/-- The decimal digits of a byte: hundreds, tens, units (43_index_memory.md R173). -/
def bcdDigits (b : Byte) : List Byte :=
  [BitVec.ofNat 8 (b.toNat / 100), BitVec.ofNat 8 (b.toNat / 10 % 10), BitVec.ofNat 8 (b.toNat % 10)]

/-- `V[0], ..., V[x]` (43_index_memory.md R174). -/
def regsThrough (x : Reg) (s : State) : List Byte := s.v.toList.take (x.val + 1)

/-- `V[k], V[k+1], ... <- bs`. -/
def setRegsFrom (v : Vector Byte 16) (k : Nat) : List Byte → Vector Byte 16
  | [] => v
  | b :: bs => setRegsFrom (v.setIfInBounds k b) (k + 1) bs

/-- `V[0], V[1], ... <- bs` (43_index_memory.md R175). -/
def loadRegs (bs : List Byte) (s : State) : State := { s with v := setRegsFrom s.v 0 bs }

/-- `I <- a`. -/
def writeI (a : Word) (s : State) : State := { s with i := a }

/-- The mask with only bit `k` set. -/
def keyMask (k : Key) : BitVec 16 := 1#16 <<< k.val

/-- Key number `k` is pressed: a number above 15 names no bit and counts as not pressed (45_keypad_timers.md R205, R207;
decision D14, log 13). -/
def keyPressed (k : Byte) (s : State) : Bool := decide (k.toNat ≤ 15) && s.keypad.getLsbD k.toNat

end Sys2Proof.Machine
end

