-- ==== Sys2Proof/Machine/Flags.lean ====
section
/-! DEFINITION. Every flag computation (10_state.md R24) and the order of result and flag (42_alu.md R150). -/

namespace Sys2Proof.Machine

/-- A flag as a register value, 0 or 1. -/
def flagByte (c : Bool) : Byte := if c then 1 else 0

/-- ADD: carry out of bit 7, 1 iff the integer sum exceeds 255 (42_alu.md R157). -/
def carryOut (a b : Byte) : Bool := decide (255 < a.toNat + b.toNat)

/-- SUB and SUBN: 1 means no borrow, the minuend `a` is at least the subtrahend `b` (42_alu.md R158, R160). -/
def noBorrow (a b : Byte) : Bool := decide (b.toNat ≤ a.toNat)

/-- SHR: bit 0 before the shift (42_alu.md R159). -/
def bitOutRight (a : Byte) : Bool := a.getLsbD 0

/-- SHL: bit 7 before the shift (42_alu.md R161). -/
def bitOutLeft (a : Byte) : Bool := a.getLsbD 7

/-- `VF <- c`. -/
def setFlag (c : Bool) (s : State) : State := writeV flagReg (flagByte c) s

/-- The result first, the flag last, so that with `x = 15` the flag survives (42_alu.md R150; decision D5, log 4). -/
def writeResultThenFlag (x : Reg) (r : Byte) (c : Bool) (s : State) : State := setFlag c (writeV x r s)

end Sys2Proof.Machine
end

