-- ==== Sys2Proof/Machine/Alu.lean ====
section
/-! DEFINITION. Register and arithmetic instructions (42_alu.md). None can raise a fault (R150). -/

namespace Sys2Proof.Machine

/-- The shape of R150: write `V[x]`, then `pc <- npc`. -/
def finishResult (x : Reg) (r : Byte) (s : State) : Result := .next (advance (writeV x r s))

/-- The shape of R150 with a flag: write `V[x]`, then `VF`, then `pc <- npc`. -/
def finishFlagged (x : Reg) (r : Byte) (c : Bool) (s : State) : Result := .next (advance (writeResultThenFlag x r c s))

/-- R151. -/
def execLdImm (x : Reg) (kk : Byte) (s : State) : Result := finishResult x kk s

/-- R152: no flag, even on wrap-around. -/
def execAddImm (x : Reg) (kk : Byte) (s : State) : Result := finishResult x (readV x s + kk) s

/-- R153. -/
def execLdReg (x y : Reg) (s : State) : Result := finishResult x (readV y s) s

/-- R154: `VF` is not reset. -/
def execOr (x y : Reg) (s : State) : Result := finishResult x (readV x s ||| readV y s) s

/-- R155. -/
def execAnd (x y : Reg) (s : State) : Result := finishResult x (readV x s &&& readV y s) s

/-- R156. -/
def execXor (x y : Reg) (s : State) : Result := finishResult x (readV x s ^^^ readV y s) s

/-- R157. -/
def execAddReg (x y : Reg) (s : State) : Result :=
  finishFlagged x (readV x s + readV y s) (carryOut (readV x s) (readV y s)) s

/-- R158. -/
def execSub (x y : Reg) (s : State) : Result :=
  finishFlagged x (readV x s - readV y s) (noBorrow (readV x s) (readV y s)) s

/-- R159: the operand is `V[x]`; `y` is ignored (30_encoding.md R98). -/
def execShr (x _y : Reg) (s : State) : Result :=
  finishFlagged x (readV x s >>> 1) (bitOutRight (readV x s)) s

/-- R160. -/
def execSubn (x y : Reg) (s : State) : Result :=
  finishFlagged x (readV y s - readV x s) (noBorrow (readV y s) (readV x s)) s

/-- R161: the operand is `V[x]`; `y` is ignored (30_encoding.md R98). -/
def execShl (x _y : Reg) (s : State) : Result :=
  finishFlagged x (readV x s <<< 1) (bitOutLeft (readV x s)) s

/-- R162 for a given `rand_byte`; the draw is counted. -/
def drawRandom (randByte : Byte) (x : Reg) (kk : Byte) (s : State) : State :=
  advance (writeV x (randByte &&& kk) { s with draws := s.draws + 1 })

/-- R162: the random byte is the free value of this draw (decision D19, log 18). -/
def execRnd (x : Reg) (kk : Byte) (s : State) : Result := .next (drawRandom (Config.randByte s.draws) x kk s)

end Sys2Proof.Machine
end

