-- ==== Sys2Proof/Machine/Control.lean ====
section
/-! DEFINITION. Control transfer (41_control.md), and the no-op of an Unknown word (40_step_cycle.md R128). Targets are absolute and
unchecked (R135; decision D6, log 5). -/

namespace Sys2Proof.Machine

/-- R136. -/
def execRet (s : State) : Result := commit s (popReturn s)

/-- R137. -/
def execJp (nnn : Addr12) (s : State) : Result := .next (jumpTo (zextAddr nnn) s)

/-- R138: the pushed "current PC" is `npc`. -/
def execCall (nnn : Addr12) (s : State) : Result := commit s ((pushReturn (npc s) s).map (jumpTo (zextAddr nnn)))

/-- R139. -/
def execSeImm (x : Reg) (kk : Byte) (s : State) : Result := .next (skipIf (readV x s == kk) s)

/-- R140. -/
def execSneImm (x : Reg) (kk : Byte) (s : State) : Result := .next (skipIf (readV x s != kk) s)

/-- R141. -/
def execSeReg (x y : Reg) (s : State) : Result := .next (skipIf (readV x s == readV y s) s)

/-- R142. -/
def execSneReg (x y : Reg) (s : State) : Result := .next (skipIf (readV x s != readV y s) s)

/-- R143: the offset is `V[0]`; the 16-bit sum is not reduced to 12 bits (decision D7, log 6). -/
def execJpV0 (nnn : Addr12) (s : State) : Result := .next (jumpTo (zextAddr nnn + zextByte (readV 0 s)) s)

/-- R128, 60_exceptions.md R240: nothing but `pc <- npc`. The report is the step's result, not state (`stepReport`). -/
def execUnknown (s : State) : Result := .next (advance s)

end Sys2Proof.Machine
end

