-- ==== Sys2Proof/Machine/Display.lean ====
section
/-! DEFINITION. The display surface and its instructions (44_display.md). Bit 7 of a sprite byte is the leftmost pixel, byte `r` is
row `r` (R197; decision D12, log 11). -/

namespace Sys2Proof.Machine

/-- `disp[cx][cy]`. -/
def pixelAt (d : Display) (cx : Fin 64) (cy : Fin 32) : Bool := d[cx.val][cy.val]

/-- `disp[cx][cy] <- disp[cx][cy] ^ 1`. -/
def flipPixel (d : Display) (cx : Fin 64) (cy : Fin 32) : Display := d.set cx.val (d[cx.val].set cy.val (!(pixelAt d cx cy)))

/-- A column number reduced modulo the width (R195). -/
def wrapCol (k : Nat) : Fin 64 := ⟨k % 64, Nat.mod_lt _ (by decide)⟩

/-- A row number reduced modulo the height (R195). -/
def wrapRow (k : Nat) : Fin 32 := ⟨k % 32, Nat.mod_lt _ (by decide)⟩

/-- A display being drawn on, and whether a set pixel has been cleared so far (R194). -/
structure Canvas where
  /-- The pixels. -/
  disp : Display
  /-- `collided`. -/
  collided : Bool
  deriving DecidableEq, Repr

/-- The sprite bit for one pixel: a 0 leaves it, a 1 flips it and collides if it was set (R192). -/
def plotBit (bit : Bool) (cx : Fin 64) (cy : Fin 32) (p : Canvas) : Canvas :=
  if bit then ⟨flipPixel p.disp cx cy, p.collided || pixelAt p.disp cx cy⟩ else p

/-- Sprite columns `8−k`..`7` of one row byte: column `c` takes bit `7−c` and lands on `(x0 + c) mod 64` (R192, R195, R197). -/
def blitCols (x0 : Nat) (cy : Fin 32) (b : Byte) : Nat → Canvas → Canvas
  | 0, p => p
  | k + 1, p => blitCols x0 cy b k (plotBit (b.getLsbD k) (wrapCol (x0 + (7 - k))) cy p)

/-- Sprite rows from row `r` on: row `r` lands on `(y0 + r) mod 32` (R192, R195). -/
def blitRows (x0 y0 r : Nat) : List Byte → Canvas → Canvas
  | [], p => p
  | b :: bs, p => blitRows x0 y0 (r + 1) bs (blitCols x0 (wrapRow (y0 + r)) b 8 p)

/-- `blit(x, y, sprite_rows) -> collided` (R193): the start position is reduced first (R195). -/
def blit (x y : Byte) (rows : List Byte) (d : Display) : Canvas :=
  blitRows (x.toNat % 64) (y.toNat % 32) 0 rows ⟨d, false⟩

/-- R191. -/
def execCls (s : State) : Result := .next (advance { s with disp := blankDisplay })

/-- What DRW does once the sprite rows are read: the display, then `VF` last (R192; decision D5, log 4). -/
def drawSprite (x y : Byte) (rows : List Byte) (s : State) : State :=
  setFlag (blit x y rows s.disp).collided { s with disp := (blit x y rows s.disp).disp }

/-- R192. With `n = 0` no byte is read and nothing can fault (R196; decision D13, log 12). -/
def execDrw (x y : Reg) (n : Nibble) (s : State) : Result :=
  commit s ((readBytes (base s) n.toNat s).map fun rows => advance (drawSprite (readV x s) (readV y s) rows s))

end Sys2Proof.Machine
end

