-- ==== Sys2Proof/Machine/IndexMemory.lean ====
section
/-! DEFINITION. Index register and memory instructions (43_index_memory.md). Stores and loads leave `I` unchanged (R177; decision
D21, log 20). -/

namespace Sys2Proof.Machine

/-- R170. -/
def execLdI (nnn : Addr12) (s : State) : Result := .next (advance (writeI (zextAddr nnn) s))

/-- R171: modulo `2^16`, no flag. -/
def execAddI (x : Reg) (s : State) : Result := .next (advance (writeI (s.i + zextByte (readV x s)) s))

/-- R172: no masking of `V[x]` (decision D24, log 23). -/
def execLdF (x : Reg) (s : State) : Result := .next (advance (writeI (5 * zextByte (readV x s)) s))

/-- R173. -/
def execLdB (x : Reg) (s : State) : Result := commit s ((writeBytes (base s) (bcdDigits (readV x s)) s).map advance)

/-- R174. -/
def execLdMemVx (x : Reg) (s : State) : Result := commit s ((writeBytes (base s) (regsThrough x s) s).map advance)

/-- R175. -/
def execLdVxMem (x : Reg) (s : State) : Result :=
  commit s ((readBytes (base s) (x.val + 1) s).map fun bs => advance (loadRegs bs s))

end Sys2Proof.Machine
end

