-- ==== Sys2Proof/Machine/KeypadTimers.lean ====
section
/-! DEFINITION. Keypad and timer instructions (45_keypad_timers.md). -/

namespace Sys2Proof.Machine

/-- R205. -/
def execSkp (x : Reg) (s : State) : Result := .next (skipIf (keyPressed (readV x s) s) s)

/-- R206. -/
def execSknp (x : Reg) (s : State) : Result := .next (skipIf (!(keyPressed (readV x s) s)) s)

/-- R208. -/
def execLdVxDT (x : Reg) (s : State) : Result := .next (advance (writeV x s.dt s))

/-- R209. -/
def execLdDTVx (x : Reg) (s : State) : Result := .next (advance { s with dt := readV x s })

/-- R210. -/
def execLdSTVx (x : Reg) (s : State) : Result := .next (advance { s with st := readV x s })

/-- R211, R212: the machine is suspended with `pc` past the instruction; `keyDown` ends the wait and writes `V[x]`. -/
def execLdVxK (x : Reg) (s : State) : Result := .next (advance { s with runState := .waitingForKey x })

end Sys2Proof.Machine
end

