-- ==== Sys2Proof/Machine/Cycle.lean ====
section
/-! DEFINITION. One step of the executor (40_step_cycle.md): gating by the run state, fetch, decode, execute; and how a word is placed
where the next step fetches it. -/

namespace Sys2Proof.Machine

/-- Fetch (R124): the word at `pc`; neither evenness nor a lower bound is asked (decision D6, log 5). -/
def fetch (s : State) : Except Fault Word := readWord s.pc.toNat s

/-- Dispatch of a decoded word (R125, R128). -/
def execDecoded (d : Decoded) (s : State) : Result :=
  match d with
  | .known i => exec i s
  | .unknown _ => execUnknown s

/-- One fetch, decode, execute cycle (R122). -/
def cycle (s : State) : Result :=
  match fetch s with
  | .ok w => execDecoded (decode w) s
  | .error f => .next (takeFault f s)

/-- One call of `step()` (R121): `Loaded` becomes `Running` and executes in the same call (R129; decision D16, log 15);
`Stopped`, `WaitingForKey` and `Halted` do nothing. -/
def stepOnce (s : State) : Result :=
  match s.runState with
  | .stopped => .next s
  | .loaded => cycle { s with runState := .running }
  | .running => cycle s
  | .waitingForKey _ => .next s
  | .halted _ => .next s

/-- The run state in which the next step executes: a stopped machine becomes a loaded one (as `load_program` does), a waiting or
halted one runs. -/
def readyToStep : RunState → RunState
  | .stopped => .loaded
  | .loaded => .loaded
  | .running => .running
  | .waitingForKey _ => .running
  | .halted _ => .running

/-- The address the next step fetches at, moved to the entry point only where no word can be fetched (`pc ≥ 0xFFF`). -/
def fetchablePc (pc : Word) : Word := if pc.toNat + 2 ≤ Config.memSize then pc else 0x0200

/-- The state with the word `w` stored, high byte first, where the next step fetches, and ready to execute it (log 27). -/
def placeFetchWord (s : State) (w : Word) : State :=
  { s with
    mem := setBytes s.mem (fetchablePc s.pc).toNat [highByte w, lowByte w]
    pc := fetchablePc s.pc
    runState := readyToStep s.runState }

end Sys2Proof.Machine
end

