-- ==== Sys2Proof/Machine/HostOps.lean ====
section
/-! DEFINITION. The operations the host calls between steps (60_exceptions.md R250), the observers, the result of a step
(40_step_cycle.md R127), and lists of calls: any interleaving of whole operations (92_eei_decisions.md D26, log 25). -/

namespace Sys2Proof.Machine

/-! ### Timers, keys, observers -/

/-- One 8-bit down-counter, clamped at 0 (60_exceptions.md R251). -/
def countDown (t : Byte) : Byte := if t = 0 then 0 else t - 1

/-- `tick_timers()` (R251). It acts in every run state (decision D17, log 16). -/
def tickTimers (s : State) : State := { s with dt := countDown s.dt, st := countDown s.st }

/-- `key_down(k)` (R254): the bit is set; a waiting machine receives the key code and runs on (decisions D15, D25, log 14, log 24). -/
def keyDown (k : Key) (s : State) : State :=
  let pressed := { s with keypad := s.keypad ||| keyMask k }
  match s.runState with
  | .waitingForKey x => { writeV x (BitVec.ofNat 8 k.val) pressed with runState := .running }
  | .stopped => pressed
  | .loaded => pressed
  | .running => pressed
  | .halted _ => pressed

/-- `key_up(k)` (R255): only the bit is cleared; it never ends a wait. -/
def keyUp (k : Key) (s : State) : State := { s with keypad := s.keypad &&& ~~~(keyMask k) }

/-- `pixel(cx, cy)` (R256): coordinates wrap. -/
def pixel (cx cy : Nat) (s : State) : Bool := pixelAt s.disp (wrapCol cx) (wrapRow cy)

/-- `sound_active()` (R258). -/
def soundActive (s : State) : Bool := decide (0 < s.st.toNat)

/-! ### Loading a program -/

/-- What `load_program` answers (70_reset_and_hazards.md R286 to R288). -/
inductive LoadResult where
  /-- The image is installed. -/
  | ok
  /-- More than 3584 bytes (R287). -/
  | programTooLarge
  /-- The machine is not `Stopped` (R288; decisions D18, D29, log 17). -/
  | notStopped
  deriving DecidableEq, Repr

/-- `load_program(bytes)` (R286). -/
def loadProgram (bytes : List Byte) (s : State) : LoadResult × State :=
  if s.runState ≠ .stopped then (.notStopped, s)
  else if Config.progMax < bytes.length then (.programTooLarge, s)
  else (.ok, { s with
    mem := setBytes s.mem Config.progBase bytes
    programLength := bytes.length
    runState := .loaded })

/-! ### The result of a step -/

/-- What `step()` returns to the host (40_step_cycle.md R127; names of decision D23, log 22). -/
inductive StepReport where
  /-- An instruction executed. -/
  | ok
  /-- The word `w` fetched at `a` was `Unknown`; otherwise like `ok`. -/
  | unknownReport (w a : Word)
  /-- Nothing was done: `Stopped` or `WaitingForKey`. -/
  | idle
  /-- This step faulted, or the machine was already halted. -/
  | halted (r : FaultRecord)
  deriving DecidableEq, Repr

/-- The result of a step that executed a cycle from `s` and did not halt. -/
def executedReport (s : State) : StepReport :=
  match fetch s with
  | .ok w =>
    match decode w with
    | .unknown u => .unknownReport u s.pc
    | .known _ => .ok
  | .error _ => .ok

/-- The result of the step that went from `s` to `t` (R127). -/
def reportOf (s t : State) : StepReport :=
  match t.runState, s.runState with
  | .halted r, _ => .halted r
  | _, .stopped => .idle
  | _, .waitingForKey _ => .idle
  | _, _ => executedReport s

/-- What the host receives from `step()` called in `s`. -/
def stepReport (s : State) : Host.Outcome StepReport Fault Refusal :=
  match step s with
  | .next t => .next (reportOf s t)
  | .fault f => .fault f
  | .refused r => .refused r

/-! ### Schedules -/

/-- The state-changing calls of R250. The observers `pixel` and `sound_active` change nothing. -/
inductive HostCall where
  /-- `reset()`. -/
  | reset
  /-- `load_program(bytes)`. -/
  | load (bytes : List Byte)
  /-- `step()`. -/
  | step
  /-- `tick_timers()`. -/
  | tick
  /-- `key_down(k)`. -/
  | keyDown (k : Key)
  /-- `key_up(k)`. -/
  | keyUp (k : Key)
  deriving DecidableEq, Repr

/-- One call, whole and alone (00_scope.md R12). -/
def perform (c : HostCall) (s : State) : Result :=
  match c with
  | .reset => .next (resetMachine s)
  | .load bytes => .next (loadProgram bytes s).2
  | .step => step s
  | .tick => .next (tickTimers s)
  | .keyDown k => .next (keyDown k s)
  | .keyUp k => .next (keyUp k s)

/-- A run: the calls in the order the host makes them. -/
def runCalls : List HostCall → State → Result
  | [], s => .next s
  | c :: cs, s =>
    match perform c s with
    | .next t => runCalls cs t
    | .fault f => .fault f
    | .refused r => .refused r

end Sys2Proof.Machine
end

