-- ==== Sys2Proof/Safety.lean ====
section
/-! DEFINITION. What counts as a safe run, and the terms the statements use: the invariant of the machine, the fault table, the duties
of a well-formed program that depend on the state, and the parts of the state an instruction leaves alone. -/

namespace Sys2Proof.Machine

/-! ### The fault table (60_exceptions.md R233, R235) -/

/-- The OutOfBounds row of R233 for `n` bytes at `a`: the condition and `fault_addr` in the table's own form. -/
def accessFault (a n : Nat) : Option Fault :=
  if 0 < n ∧ 0xFFF < a + n - 1 then some (.outOfBounds (if 0xFFF < a then a else 0x1000)) else none

/-- The one fault an executed instruction can raise in a state (R235): CALL, RET, DRW, LD B, LD [I] and LD Vx,[I]; the other 28
raise nothing. -/
def faultOf (i : Instr) (s : State) : Option Fault :=
  match i with
  | .call _ => if s.depth.val = 16 then some .stackOverflow else none
  | .ret => if s.depth.val = 0 then some .stackUnderflow else none
  | .drw _ _ n => accessFault s.i.toNat n.toNat
  | .ldB _ => accessFault s.i.toNat 3
  | .ldMemVx x => accessFault s.i.toNat (x.val + 1)
  | .ldVxMem x => accessFault s.i.toNat (x.val + 1)
  | .cls | .jp _ | .seImm _ _ | .sneImm _ _ | .seReg _ _ | .ldImm _ _ | .addImm _ _ | .ldReg _ _ | .orReg _ _ | .andReg _ _
  | .xorReg _ _ | .addReg _ _ | .sub _ _ | .shr _ _ | .subn _ _ | .shl _ _ | .sneReg _ _ | .ldI _ | .jpV0 _ | .rnd _ _
  | .skp _ | .sknp _ | .ldVxDT _ | .ldVxK _ | .ldDTVx _ | .ldSTVx _ | .addI _ | .ldF _ => none

/-! ### The invariant -/

/-- What holds of a machine no program has run on since `reset` (10_state.md R50, 70_reset_and_hazards.md R286): every field a program
could change, memory apart, has its reset value. -/
structure State.Pristine (s : State) : Prop where
  regs : s.v = State.reset.v
  index : s.i = State.reset.i
  pc : s.pc = State.reset.pc
  depth : s.depth = State.reset.depth
  timers : s.dt = 0 ∧ s.st = 0
  disp : s.disp = blankDisplay

/-- A fault record that tells the truth about the halted state it stands in (10_state.md R43, 60_exceptions.md R231 to R233, R237). -/
structure FaultRecord.Truthful (r : FaultRecord) (s : State) : Prop where
  pc : r.faultPc = s.pc
  overflow : r.fault = .stackOverflow → s.depth.val = 16
  underflow : r.fault = .stackUnderflow → s.depth.val = 0
  bounds : ∀ a, r.fault = .outOfBounds a → 0xFFF < a

/-- The invariant every operation keeps. -/
structure State.Inv (s : State) : Prop where
  /-- Memory is in canonical form, inside the 4096 bytes (20_memory.md R60). -/
  memory : Memory.wf s.mem
  /-- `program_length` is 0..3584 (10_state.md R20, R44). -/
  length : s.programLength ≤ 3584
  /-- Only `reset` and ticks, key events and loads have happened in `Stopped` and `Loaded` (10_state.md R41). -/
  fresh : s.runState = .stopped ∨ s.runState = .loaded → s.Pristine
  /-- A halted machine stands at its faulting instruction (60_exceptions.md R237). -/
  halt : ∀ r, s.runState = .halted r → r.Truthful s

/-! ### Run states (10_state.md R41) -/

/-- The machine has halted. -/
def State.isHalted (s : State) : Prop := ∃ r, s.runState = .halted r

/-- The next `step` executes a cycle (40_step_cycle.md R121). -/
def State.canStep (s : State) : Prop := s.runState = .running ∨ s.runState = .loaded

/-! ### Duties of a well-formed program (70_reset_and_hazards.md R295) -/

/-- The duties of R295 that depend on the state, for the instruction about to execute. The core checks none of them but the bounds and
the stack, so no meaning assumes them. -/
def stateDuty (i : Instr) (s : State) : Prop :=
  match i with
  | .jpV0 nnn => (nnn.toNat + (readV 0 s).toNat) % 2 = 0 ∧ 0x200 ≤ nnn.toNat + (readV 0 s).toNat ∧ nnn.toNat + (readV 0 s).toNat ≤ 0xFFE
  | .ldB _ => 0x200 ≤ s.i.toNat
  | .ldMemVx _ => 0x200 ≤ s.i.toNat
  | .skp x => (readV x s).toNat ≤ 15
  | .sknp x => (readV x s).toNat ≤ 15
  | .cls | .ret | .jp _ | .call _ | .seImm _ _ | .sneImm _ _ | .seReg _ _ | .ldImm _ _ | .addImm _ _ | .ldReg _ _ | .orReg _ _
  | .andReg _ _ | .xorReg _ _ | .addReg _ _ | .sub _ _ | .shr _ _ | .subn _ _ | .shl _ _ | .sneReg _ _ | .ldI _ | .rnd _ _
  | .drw _ _ _ | .ldVxDT _ | .ldVxK _ | .ldDTVx _ | .ldSTVx _ | .addI _ | .ldF _ | .ldVxMem _ => True

/-- All of R295 for the instruction about to execute. -/
def dutiful (i : Instr) (s : State) : Prop := i.wellFormed = true ∧ faultOf i s = none ∧ stateDuty i s

/-- A word's address may stand in `pc` or on the stack of a well-formed program: even and not below `0x200` (10_state.md R27). -/
def codeAddress (a : Word) : Prop := a.toNat % 2 = 0 ∧ 0x200 ≤ a.toNat

/-- `pc` and every outstanding return address are code addresses. -/
def State.codeAddresses (s : State) : Prop :=
  codeAddress s.pc ∧ ∀ k : Fin 16, k.val < s.depth.val → codeAddress s.stack[k.val]

/-! ### Sprites -/

/-- A 1 bit of the `n`-row sprite at `I`, drawn from register values `x`, `y`, lands on the pixel (44_display.md R192, R195, R197). -/
def spriteCovers (x y : Byte) (n : Nat) (s : State) (cx : Fin 64) (cy : Fin 32) : Prop :=
  ∃ r, r < n ∧ ∃ c, c < 8 ∧ cx.val = (x.toNat % 64 + c) % 64 ∧ cy.val = (y.toNat % 32 + r) % 32 ∧
    (byteAt s.mem (s.i.toNat + r)).getLsbD (7 - c) = true

/-- A draw's collision: a 1 bit of the sprite lands on a set pixel (44_display.md R194). -/
def spriteCollides (x y : Byte) (n : Nat) (s : State) : Prop :=
  ∃ cx cy, spriteCovers x y n s cx cy ∧ pixelAt s.disp cx cy = true

/-! ### What a store leaves at an address -/

/-- `b` is what stands at the address `k` after a dump of `V[0]`..`V[x]` in `s`: the register stored there, or the old byte where the dump
does not reach (43_index_memory.md R174). -/
def ByteAfterDump (x : Reg) (s : State) (k : Nat) (b : Byte) : Prop :=
  (∀ r : Reg, r.val ≤ x.val → k = s.i.toNat + r.val → b = readV r s) ∧
  (k < s.i.toNat ∨ s.i.toNat + x.val < k → b = byteAt s.mem k)

/-- `b` is what stands at the address `k` after a store of the digits of `V[x]` in `s`: the digit stored there, or the old byte where the
store does not reach (43_index_memory.md R173). -/
def ByteAfterBcd (x : Reg) (s : State) (k : Nat) (b : Byte) : Prop :=
  (k = s.i.toNat → b.toNat = (readV x s).toNat / 100) ∧
  (k = s.i.toNat + 1 → b.toNat = (readV x s).toNat / 10 % 10) ∧
  (k = s.i.toNat + 2 → b.toNat = (readV x s).toNat % 10) ∧
  (k < s.i.toNat ∨ s.i.toNat + 2 < k → b = byteAt s.mem k)

/-! ### What an instruction can see -/

/-- The states agree but for the stack slots at or above the depth, which no instruction can observe (10_state.md R29). -/
def AgreeOnHeldSlots (s t : State) : Prop :=
  t = { s with stack := t.stack } ∧ ∀ k : Fin 16, k.val < s.depth.val → t.stack[k.val] = s.stack[k.val]

/-! ### What stays as it was: the frame -/

/-- Every byte of memory reads as before. -/
def SameMemory (s t : State) : Prop := ∀ a, byteAt t.mem a = byteAt s.mem a

/-- Every byte outside the `n` bytes at `a` reads as before. -/
def SameMemoryOutside (a n : Nat) (s t : State) : Prop := ∀ k, (k < a ∨ a + n ≤ k) → byteAt t.mem k = byteAt s.mem k

/-- Every register reads as before. -/
def SameRegs (s t : State) : Prop := ∀ r : Reg, readV r t = readV r s

/-- Every register but `x` reads as before. -/
def SameRegsBut (x : Reg) (s t : State) : Prop := ∀ r : Reg, r ≠ x → readV r t = readV r s

/-- Every pixel is as before. -/
def SameDisplay (s t : State) : Prop := ∀ cx cy, pixelAt t.disp cx cy = pixelAt s.disp cx cy

/-- The call stack and its depth are as before. -/
def SameStack (s t : State) : Prop := t.stack = s.stack ∧ t.depth = s.depth

/-- Both timers are as before. -/
def SameTimers (s t : State) : Prop := t.dt = s.dt ∧ t.st = s.st

/-- The key mask, the recorded program length and the model's count of draws are as before. -/
def SameHostSide (s t : State) : Prop := t.keypad = s.keypad ∧ t.programLength = s.programLength ∧ t.draws = s.draws

/-- Everything but `pc` and the general registers is as before: the frame of an instruction whose only destination is a register. -/
structure RegisterFrame (s t : State) : Prop where
  memory : SameMemory s t
  index : t.i = s.i
  stack : SameStack s t
  timers : SameTimers s t
  display : SameDisplay s t
  host : SameHostSide s t
  run : t.runState = s.runState

/-- Everything but `pc` and `I` is as before. -/
structure IndexFrame (s t : State) : Prop where
  memory : SameMemory s t
  regs : SameRegs s t
  stack : SameStack s t
  timers : SameTimers s t
  display : SameDisplay s t
  host : SameHostSide s t
  run : t.runState = s.runState

/-- Everything but `pc` and the call stack is as before: the frame of a control transfer. -/
structure ControlFrame (s t : State) : Prop where
  memory : SameMemory s t
  regs : SameRegs s t
  index : t.i = s.i
  timers : SameTimers s t
  display : SameDisplay s t
  host : SameHostSide s t
  run : t.runState = s.runState

/-- Everything but `pc` and memory is as before: the frame of a store. -/
structure StoreFrame (s t : State) : Prop where
  regs : SameRegs s t
  index : t.i = s.i
  stack : SameStack s t
  timers : SameTimers s t
  display : SameDisplay s t
  host : SameHostSide s t
  run : t.runState = s.runState

/-- Everything but `pc`, the registers and the display is as before: the frame of a draw. -/
structure DisplayFrame (s t : State) : Prop where
  memory : SameMemory s t
  index : t.i = s.i
  stack : SameStack s t
  timers : SameTimers s t
  host : SameHostSide s t
  run : t.runState = s.runState

end Sys2Proof.Machine
end

