-- ==== Sys2Proof/Certificates/Slice0/Obligations.lean ====
section
/-! DEFINITION. The statements for the provers. OBLIGATIONS.json says in words what each states, and which rules of spec/ it rests on. -/

open Sys2Proof Sys2Proof.Machine

/-! ### Encoding and decoding -/

/-- Words written out bit by bit from the spec's encodings (30_encoding.md R95; spec/opcode_table.json "encoding"), one for every format
and for Unknown. The numeric values are the spec's decision D2, from general knowledge (log 1, log 2). -/
def Obligations.SpecWordsDecodeToTheirInstructions : Prop :=
  decode 0b0000000011100000 = .known .cls ∧
  decode 0b0000000011101110 = .known .ret ∧
  decode 0b0010101010111100 = .known (.call 0xABC) ∧
  decode 0b0011101001000010 = .known (.seImm 0xA 0x42) ∧
  decode 0b0101101010110000 = .known (.seReg 0xA 0xB) ∧
  decode 0b1000101010111110 = .known (.shl 0xA 0xB) ∧
  decode 0b1010101010111100 = .known (.ldI 0xABC) ∧
  decode 0b1101101010110101 = .known (.drw 0xA 0xB 5) ∧
  decode 0b1110101010011110 = .known (.skp 0xA) ∧
  decode 0b1111101001100101 = .known (.ldVxMem 0xA) ∧
  decode 0b0101101010110001 = .unknown 0b0101101010110001 ∧
  decode 0b0000000000000000 = .unknown 0

/-- R94: decoding never fails: a word decodes to an instruction or to `Unknown` of itself. -/
def Obligations.DecodeIsKnownOrUnknownOfTheWord : Prop :=
  ∀ w : Word, (∃ i, decode w = .known i) ∨ decode w = .unknown w

/-- Decoding an encoded instruction gives it back, for every instruction and every operand: no bit of an encoding is dropped. -/
def Obligations.DecodeOfEncodeIsTheInstruction : Prop :=
  ∀ i : Instr, decode (encode i) = .known i

/-- A word that decodes to an instruction with its fields is the encoding of exactly that. It rests on the spec's decision D3 (log 2):
the sub-selectors are strict, and the field `y` of SHR and SHL, which selects nothing (R98), is kept in the syntax. -/
def Obligations.EncodeOfDecodeIsTheWord : Prop :=
  ∀ (w : Word) (i : Instr), decode w = .known i → encode i = w

/-- The decode algorithm R96 and the opcode map R95 agree on all words: a word decodes to an instruction of a row exactly when the row
selects it, and is Unknown exactly when no row of the map does. Rests on the spec's decisions D2, D3 (log 1, log 2). -/
def Obligations.DecoderAgreesWithTheOpcodeMap : Prop :=
  ∀ w : Word,
    (∀ r ∈ opmap, r.selects w = true ↔ ∃ i, decode w = .known i ∧ i.row = r) ∧
    (decode w = .unknown w ↔ ∀ r ∈ opmap, r.selects w = false)

/-! ### Memory -/

/-- R63, R65: a one-byte write and read at an address, in bounds and out. -/
def Obligations.ByteReadAndWriteAreBoundsChecked : Prop :=
  ∀ (a : Nat) (v : Byte) (s : State),
    (a ≤ 0xFFF → readBytes a 1 s = .ok [byteAt s.mem a] ∧
      ∃ t, writeBytes a [v] s = .ok t ∧ byteAt t.mem a = v ∧ (∀ k, k ≠ a → byteAt t.mem k = byteAt s.mem k) ∧ t = { s with mem := t.mem }) ∧
    (0xFFF < a → readBytes a 1 s = .error (.outOfBounds a) ∧ writeBytes a [v] s = .error (.outOfBounds a))

/-- R64: the two-byte read is big-endian and reports the first offending address. -/
def Obligations.WordReadIsBigEndian : Prop :=
  ∀ (a : Nat) (s : State),
    (a + 1 ≤ 0xFFF → ∃ w, readWord a s = .ok w ∧ w.toNat = (byteAt s.mem a).toNat * 256 + (byteAt s.mem (a + 1)).toNat) ∧
    (a + 1 > 0xFFF → readWord a s = .error (.outOfBounds (if a > 0xFFF then a else a + 1)))

/-- Canonical memories that read the same at every address are the same data: the model's choice of form (log 28). -/
def Obligations.CanonicalMemoriesReadingAlikeAreEqual : Prop :=
  ∀ m n : Memory, Memory.wf m → Memory.wf n → (∀ a, byteAt m a = byteAt n a) → m = n

/-- R77: what a store writes over the next instruction is fetched by the next step, one byte of it or both, for both storing forms: each
byte of the word fetched after the store is the byte stored at its address, and the old byte where the store does not reach. -/
def Obligations.StoredBytesAreFetchedByTheNextStep : Prop :=
  ∀ (x : Reg) (s : State), (s.pc + 2).toNat + 1 ≤ 0xFFF →
    (s.i.toNat + x.val ≤ 0xFFF → ∃ t hi lo, exec (.ldMemVx x) s = .next t ∧ t.pc = s.pc + 2 ∧ fetch t = .ok (hi ++ lo) ∧
      ByteAfterDump x s (s.pc + 2).toNat hi ∧ ByteAfterDump x s ((s.pc + 2).toNat + 1) lo) ∧
    (s.i.toNat + 2 ≤ 0xFFF → ∃ t hi lo, exec (.ldB x) s = .next t ∧ t.pc = s.pc + 2 ∧ fetch t = .ok (hi ++ lo) ∧
      ByteAfterBcd x s (s.pc + 2).toNat hi ∧ ByteAfterBcd x s ((s.pc + 2).toNat + 1) lo)

/-! ### The step -/

/-- R122, R125: where the two bytes at `pc` decode to an instruction, a step is that instruction's meaning, in the state itself when
`Running`, with `Running` set first when `Loaded` (R129: the spec's decision D16, log 15). -/
def Obligations.StepRunsTheDecodedInstruction : Prop :=
  ∀ (i : Instr) (s : State), s.pc.toNat + 1 ≤ 0xFFF → decode (byteAt s.mem s.pc.toNat ++ byteAt s.mem (s.pc.toNat + 1)) = .known i →
    (s.runState = .running → step s = exec i s) ∧
    (s.runState = .loaded → step s = exec i { s with runState := .running })

/-- R128: an Unknown word changes nothing but `pc`, and is reported with its address. What the report holds, beyond the fact, is the spec's
decision D23 (log 22). -/
def Obligations.UnknownWordOnlyAdvancesAndIsReported : Prop :=
  ∀ (w : Word) (s : State), s.runState = .running → s.pc.toNat + 1 ≤ 0xFFF →
    byteAt s.mem s.pc.toNat ++ byteAt s.mem (s.pc.toNat + 1) = w → decode w = .unknown w →
    step s = .next { s with pc := s.pc + 2 } ∧ stepReport s = .next (.unknownReport w s.pc)

/-- R124: a fetch that leaves memory halts. The record is the spec's decision D20, that nothing else changes its decision D8, and that a
`Loaded` machine does so in its first step its decision D16 (log 19, log 7, log 15). -/
def Obligations.FetchPastMemoryHalts : Prop :=
  ∀ s : State, s.canStep → 0xFFF ≤ s.pc.toNat →
    step s = .next { s with runState := .halted ⟨.outOfBounds (if 0xFFF < s.pc.toNat then s.pc.toNat else 0x1000), s.pc⟩ }

/-- R121: a step in `Stopped`, `WaitingForKey` or `Halted` changes nothing; its result is `Idle` or the fault again. `Stopped` is the
spec's decision D16 (log 15), the result names D23 (log 22). -/
def Obligations.StepDoesNothingUnlessRunnable : Prop :=
  ∀ s : State,
    (s.runState = .stopped → step s = .next s ∧ stepReport s = .next .idle) ∧
    (∀ x, s.runState = .waitingForKey x → step s = .next s ∧ stepReport s = .next .idle) ∧
    (∀ r, s.runState = .halted r → step s = .next s ∧ stepReport s = .next (.halted r))

/-- R126: every step answers a next state: this model has no stuck state and refuses nothing (log 19). -/
def Obligations.EveryStepAnswersANextState : Prop :=
  ∀ s : State, ∃ t, step s = .next t

/-- R236, R237: a step that halts the machine changes nothing but the run state, and the record holds the address of the faulting
instruction. That nothing else changes is the spec's decision D8, the record D20, and that a `Loaded` machine can halt in its first step
D16 (log 7, log 19, log 15). -/
def Obligations.HaltingStepChangesOnlyTheRunState : Prop :=
  ∀ (s t : State) (r : FaultRecord), s.canStep → step s = .next t → t.runState = .halted r →
    t = { s with runState := .halted r } ∧ r.faultPc = s.pc

/-- R233, R235: an instruction halts the machine exactly on the fault table's condition, with the table's fault. Precision is the spec's
decision D8, the record D20 (log 7, log 19). -/
def Obligations.InstructionsHaltExactlyByTheFaultTable : Prop :=
  ∀ (i : Instr) (s : State), s.runState = .running →
    (∀ f, faultOf i s = some f → exec i s = .next { s with runState := .halted ⟨f, s.pc⟩ }) ∧
    (faultOf i s = none → ∃ t, exec i s = .next t ∧ ¬ t.isHalted)

/-- R41: where a step takes the run state. A runnable machine waits exactly when it executed wait-for-key, halts or runs otherwise;
any other run state is left as it is. The rows of `Stopped` and `Loaded` are the spec's decision D16 (log 15). -/
def Obligations.StepFollowsTheRunStateTable : Prop :=
  ∀ s t : State, step s = .next t →
    (¬ s.canStep → t.runState = s.runState) ∧
    (s.canStep → (t.runState = .running ∨ t.isHalted ∨ ∃ x, t.runState = .waitingForKey x) ∧
      ∀ x, t.runState = .waitingForKey x ↔ ∃ w, fetch s = .ok w ∧ decode w = .known (.ldVxK x))

/-! ### The invariant -/

/-- The reset state meets the invariant. The canonical form of memory is the model's choice (log 28); the zeros of the registers, timers and
display and `pc = 0x200` are the spec's decision D10 (log 9). -/
def Obligations.ResetStateMeetsTheInvariant : Prop := State.reset.Inv

/-- Every step keeps the invariant: memory stays in canonical form inside its 4096 bytes, the program length stays in range, a machine
that has not run stays pristine, a fault record stays truthful. The canonical form is the model's choice (log 28); that a halted machine
stands at its faulting instruction, with this record, is the spec's decisions D8 and D20 (log 7, log 19); the values of a machine that has
not run, and that the first step runs it, are D10 and D16 (log 9, log 15). -/
def Obligations.StepKeepsTheInvariant : Prop :=
  ∀ s t : State, s.Inv → step s = .next t → t.Inv

/-- Every call of the host keeps the invariant: reset, load, step, tick, key events. Beside what the step rests on (D8, D20, D10, D16; log 7,
log 19, log 9, log 15; the canonical form, log 28) it rests on the spec's decisions on the other calls: ticks in every run state D17
(log 16), loads only in `Stopped` D18 (log 17), key events in every run state D25 (log 24), what ends a wait D15 (log 14). -/
def Obligations.EveryHostCallKeepsTheInvariant : Prop :=
  ∀ (c : HostCall) (s t : State), s.Inv → perform c s = .next t → t.Inv

/-- Whatever the host calls, in whatever order and number, from any state that meets the invariant: the run goes through and its end
meets the invariant. That the schedule is open is the spec's decision D26 (log 25); the calls rest on D8, D20, D10, D16, D17, D18, D25 and
D15 (log 7, log 19, log 9, log 15, log 16, log 17, log 24, log 14), and the canonical form is the model's choice (log 28). -/
def Obligations.EveryScheduleRunsThroughAndKeepsTheInvariant : Prop :=
  ∀ (cs : List HostCall) (s : State), s.Inv → ∃ t, runCalls cs s = .next t ∧ t.Inv

/-! ### Who may change what: rules over all instructions -/

/-- R62: only store-BCD and register-dump change memory. -/
def Obligations.OnlyStoresChangeMemory : Prop :=
  ∀ (i : Instr) (s t : State), exec i s = .next t → (∀ x, i ≠ .ldB x) → (∀ x, i ≠ .ldMemVx x) → SameMemory s t

/-- R34: only draw sprite and clear screen change the display; ticks and key events do not. -/
def Obligations.OnlyClsAndDrwChangeTheDisplay : Prop :=
  (∀ (i : Instr) (s t : State), exec i s = .next t → i ≠ .cls → (∀ x y n, i ≠ .drw x y n) → SameDisplay s t) ∧
  (∀ s : State, SameDisplay s (tickTimers s)) ∧
  (∀ (k : Key) (s : State), SameDisplay s (keyDown k s) ∧ SameDisplay s (keyUp k s))

/-- R29, R30: only call and return touch the call stack. -/
def Obligations.OnlyCallAndRetTouchTheStack : Prop :=
  ∀ (i : Instr) (s t : State), exec i s = .next t → (∀ a, i ≠ .call a) → i ≠ .ret → SameStack s t

/-- R28: only set-index, add-to-index and sprite-address write `I`. That the memory instructions leave it alone is the spec's decision
D21 (log 20). -/
def Obligations.OnlyIndexInstructionsWriteI : Prop :=
  ∀ (i : Instr) (s t : State), exec i s = .next t → (∀ a, i ≠ .ldI a) → (∀ x, i ≠ .addI x) → (∀ x, i ≠ .ldF x) → t.i = s.i

/-- R31, R32: only `Fx15` writes `DT` and only `Fx18` writes `ST`; the executor never decrements them. -/
def Obligations.OnlyTimerMovesWriteTheTimers : Prop :=
  ∀ (i : Instr) (s t : State), exec i s = .next t →
    ((∀ x, i ≠ .ldDTVx x) → t.dt = s.dt) ∧ ((∀ x, i ≠ .ldSTVx x) → t.st = s.st)

/-- R33, R44: no step changes the key mask or the recorded program length. -/
def Obligations.NoStepWritesTheKeypadOrTheProgramLength : Prop :=
  ∀ s t : State, step s = .next t → t.keypad = s.keypad ∧ t.programLength = s.programLength

/-- R24: the six flag-writing instructions leave 0 or 1 in `VF` whenever they do not fault, and an instruction that changes `VF` is one of
the six or has register 15 as its destination (or loads it from memory). With `x = 15` the flag wins: the spec's decision D5 (log 4). -/
def Obligations.FlagRegisterChangesOnlyAsFlagOrDestination : Prop :=
  ∀ (i : Instr) (s t : State), exec i s = .next t →
    ((∃ x y, i = .addReg x y ∨ i = .sub x y ∨ i = .shr x y ∨ i = .subn x y ∨ i = .shl x y ∨ ∃ n, i = .drw x y n) →
      faultOf i s = none → readV 15 t = 0 ∨ readV 15 t = 1) ∧
    (readV 15 t ≠ readV 15 s →
      (∃ x y, i = .addReg x y ∨ i = .sub x y ∨ i = .shr x y ∨ i = .subn x y ∨ i = .shl x y ∨ ∃ n, i = .drw x y n) ∨
      (∃ y, i = .ldReg 15 y ∨ i = .orReg 15 y ∨ i = .andReg 15 y ∨ i = .xorReg 15 y) ∨
      (∃ kk, i = .ldImm 15 kk ∨ i = .addImm 15 kk ∨ i = .rnd 15 kk) ∨ i = .ldVxDT 15 ∨ i = .ldVxMem 15)

/-- R162: only RND takes a random byte: every other instruction does the same whatever the index of the next free value is. -/
def Obligations.OnlyRndTakesARandomByte : Prop :=
  ∀ (i : Instr) (s t : State) (k : Nat), (∀ x kk, i ≠ .rnd x kk) → exec i s = .next t →
    t.draws = s.draws ∧ exec i { s with draws := k } = .next { t with draws := k }

/-- R29: slots at or above `depth` are not observable: states that differ only there step to states that differ only there. That a pop
keeps its slot is the spec's decision D27 (log 26). -/
def Obligations.UnusedStackSlotsAreNotObservable : Prop :=
  ∀ s s' t : State, AgreeOnHeldSlots s s' → step s = .next t → ∃ t', step s' = .next t' ∧ AgreeOnHeldSlots t t'

/-! ### Register and arithmetic instructions -/

/-- R151, R152: the immediate forms: the result, no flag, nothing else. -/
def Obligations.ImmediateFormsWriteOnlyTheirRegister : Prop :=
  ∀ (x : Reg) (kk : Byte) (s : State),
    (∃ t, exec (.ldImm x kk) s = .next t ∧ readV x t = kk ∧ SameRegsBut x s t ∧ t.pc = s.pc + 2 ∧ RegisterFrame s t) ∧
    (∃ t, exec (.addImm x kk) s = .next t ∧ (readV x t).toNat = ((readV x s).toNat + kk.toNat) % 256 ∧ SameRegsBut x s t ∧
      t.pc = s.pc + 2 ∧ RegisterFrame s t)

/-- R153 to R156: assign, or, and, exclusive or: bit by bit, no flag, nothing else. -/
def Obligations.MovesAndLogicWriteOnlyTheirRegister : Prop :=
  ∀ (x y : Reg) (s : State),
    (∃ t, exec (.ldReg x y) s = .next t ∧ readV x t = readV y s ∧ SameRegsBut x s t ∧ t.pc = s.pc + 2 ∧ RegisterFrame s t) ∧
    (∃ t, exec (.orReg x y) s = .next t ∧ (∀ k, (readV x t).getLsbD k = ((readV x s).getLsbD k || (readV y s).getLsbD k)) ∧
      SameRegsBut x s t ∧ t.pc = s.pc + 2 ∧ RegisterFrame s t) ∧
    (∃ t, exec (.andReg x y) s = .next t ∧ (∀ k, (readV x t).getLsbD k = ((readV x s).getLsbD k && (readV y s).getLsbD k)) ∧
      SameRegsBut x s t ∧ t.pc = s.pc + 2 ∧ RegisterFrame s t) ∧
    (∃ t, exec (.xorReg x y) s = .next t ∧ (∀ k, (readV x t).getLsbD k = ((readV x s).getLsbD k ^^ (readV y s).getLsbD k)) ∧
      SameRegsBut x s t ∧ t.pc = s.pc + 2 ∧ RegisterFrame s t)

/-- R157, R158, R160: add, subtract and reverse subtract with their flag, for every destination. With `x = 15` the flag is what is left:
the spec's decision D5 (log 4). -/
def Obligations.AddAndSubtractSetResultAndFlag : Prop :=
  ∀ (x y : Reg) (s : State),
    (∃ t, exec (.addReg x y) s = .next t ∧
      (x ≠ 15 → (readV x t).toNat = ((readV x s).toNat + (readV y s).toNat) % 256) ∧
      readV 15 t = (if 255 < (readV x s).toNat + (readV y s).toNat then 1 else 0) ∧
      (∀ r : Reg, r ≠ x → r ≠ 15 → readV r t = readV r s) ∧ t.pc = s.pc + 2 ∧ RegisterFrame s t) ∧
    (∃ t, exec (.sub x y) s = .next t ∧
      (x ≠ 15 → ((readV x t).toNat : Int) = ((readV x s).toNat - (readV y s).toNat : Int) % 256) ∧
      readV 15 t = (if (readV y s).toNat ≤ (readV x s).toNat then 1 else 0) ∧
      (∀ r : Reg, r ≠ x → r ≠ 15 → readV r t = readV r s) ∧ t.pc = s.pc + 2 ∧ RegisterFrame s t) ∧
    (∃ t, exec (.subn x y) s = .next t ∧
      (x ≠ 15 → ((readV x t).toNat : Int) = ((readV y s).toNat - (readV x s).toNat : Int) % 256) ∧
      readV 15 t = (if (readV x s).toNat ≤ (readV y s).toNat then 1 else 0) ∧
      (∀ r : Reg, r ≠ x → r ≠ 15 → readV r t = readV r s) ∧ t.pc = s.pc + 2 ∧ RegisterFrame s t)

/-- R159, R161: the shifts by one of `V[x]`, for every `y`, and the bit shifted out. With `x = 15` the flag is what is left: the spec's
decision D5 (log 4); that `y` is ignored is its decision D3 (log 2). -/
def Obligations.ShiftsMoveOneBitOutIntoTheFlag : Prop :=
  ∀ (x y : Reg) (s : State),
    (∃ t, exec (.shr x y) s = .next t ∧ (x ≠ 15 → (readV x t).toNat = (readV x s).toNat / 2) ∧
      (readV 15 t).toNat = (readV x s).toNat % 2 ∧
      (∀ r : Reg, r ≠ x → r ≠ 15 → readV r t = readV r s) ∧ t.pc = s.pc + 2 ∧ RegisterFrame s t) ∧
    (∃ t, exec (.shl x y) s = .next t ∧ (x ≠ 15 → (readV x t).toNat = 2 * (readV x s).toNat % 256) ∧
      (readV 15 t).toNat = (readV x s).toNat / 128 ∧
      (∀ r : Reg, r ≠ x → r ≠ 15 → readV r t = readV r s) ∧ t.pc = s.pc + 2 ∧ RegisterFrame s t)

/-- R162: RND writes the free byte of this draw under the mask and takes one draw. The statement holds whatever that byte is
(decision D19, log 18). -/
def Obligations.RndWritesAMaskedFreeByte : Prop :=
  ∀ (x : Reg) (kk : Byte) (s : State),
    ∃ t, exec (.rnd x kk) s = .next t ∧ readV x t = Config.randByte s.draws &&& kk ∧
      (∀ k, kk.getLsbD k = false → (readV x t).getLsbD k = false) ∧ SameRegsBut x s t ∧ t.pc = s.pc + 2 ∧ t.draws = s.draws + 1 ∧
      RegisterFrame { s with draws := s.draws + 1 } t

/-! ### Control transfer -/

/-- R137: a jump goes to its address, odd or below `0x200` included, and changes nothing else. That no target is checked is the spec's
decision D6, resolving conflict C2 (log 5). -/
def Obligations.JumpGoesToItsAddress : Prop :=
  ∀ (nnn : Addr12) (s : State),
    ∃ t, exec (.jp nnn) s = .next t ∧ t.pc.toNat = nnn.toNat ∧ ControlFrame s t ∧ SameStack s t

/-- R143: jump with offset goes to the 16-bit sum with `V[0]`, not reduced to 12 bits (the spec's decision D7, log 6). -/
def Obligations.JumpWithOffsetAddsV0 : Prop :=
  ∀ (nnn : Addr12) (s : State),
    ∃ t, exec (.jpV0 nnn) s = .next t ∧ t.pc.toNat = nnn.toNat + (readV 0 s).toNat ∧ ControlFrame s t ∧ SameStack s t

/-- R138: a call with room pushes the address after it and goes to its address; with 16 calls outstanding it halts with StackOverflow and
changes nothing else (the spec's decisions D8, D20; log 7, log 19). -/
def Obligations.CallPushesTheAddressAfterIt : Prop :=
  ∀ (nnn : Addr12) (s : State),
    (∀ h : s.depth.val < 16, ∃ t, exec (.call nnn) s = .next t ∧ t.stack[s.depth.val] = s.pc + 2 ∧ t.depth.val = s.depth.val + 1 ∧
      (∀ k : Fin 16, k.val ≠ s.depth.val → t.stack[k.val] = s.stack[k.val]) ∧ t.pc.toNat = nnn.toNat ∧ ControlFrame s t) ∧
    (s.depth.val = 16 → exec (.call nnn) s = .next { s with runState := .halted ⟨.stackOverflow, s.pc⟩ })

/-- R136: a return with an address held pops the newest one into `pc`; with none it halts with StackUnderflow and changes nothing else
(the spec's decisions D8, D20; log 7, log 19). That a pop keeps its slot is its decision D27 (log 26). -/
def Obligations.RetPopsTheNewestAddress : Prop :=
  ∀ s : State,
    (∀ (k : Fin 16), s.depth.val = k.val + 1 → ∃ t, exec .ret s = .next t ∧ t.pc = s.stack[k.val] ∧ t.depth.val = k.val ∧
      t.stack = s.stack ∧ ControlFrame s t) ∧
    (s.depth.val = 0 → exec .ret s = .next { s with runState := .halted ⟨.stackUnderflow, s.pc⟩ })

/-- 95_test_vectors.md S10 for every address: a call followed by a return comes back to the address after the call with the same
outstanding return addresses. -/
def Obligations.CallThenRetComesBackAfterTheCall : Prop :=
  ∀ (nnn : Addr12) (s : State), s.depth.val < 16 →
    ∃ t u, exec (.call nnn) s = .next t ∧ exec .ret t = .next u ∧ u.pc = s.pc + 2 ∧ u.depth = s.depth ∧
      (∀ k : Fin 16, k.val < s.depth.val → u.stack[k.val] = s.stack[k.val]) ∧ ControlFrame s u

/-- R139 to R142: each skip goes two further exactly when its condition holds, and changes nothing else. -/
def Obligations.SkipsGoTwoFurtherExactlyOnTheirCondition : Prop :=
  ∀ (x y : Reg) (kk : Byte) (s : State),
    (∃ t, exec (.seImm x kk) s = .next t ∧ t.pc = (if readV x s = kk then s.pc + 2 + 2 else s.pc + 2) ∧ ControlFrame s t ∧ SameStack s t) ∧
    (∃ t, exec (.sneImm x kk) s = .next t ∧ t.pc = (if readV x s ≠ kk then s.pc + 2 + 2 else s.pc + 2) ∧ ControlFrame s t ∧ SameStack s t) ∧
    (∃ t, exec (.seReg x y) s = .next t ∧ t.pc = (if readV x s = readV y s then s.pc + 2 + 2 else s.pc + 2) ∧ ControlFrame s t ∧
      SameStack s t) ∧
    (∃ t, exec (.sneReg x y) s = .next t ∧ t.pc = (if readV x s ≠ readV y s then s.pc + 2 + 2 else s.pc + 2) ∧ ControlFrame s t ∧
      SameStack s t)

/-! ### Keypad and timers -/

/-- R205, R206, R207: the key skips test the mask bit numbered by the VALUE of `V[x]`; a number above 15 is not pressed (the spec's
decision D14, log 13). -/
def Obligations.KeySkipsTestTheMaskBit : Prop :=
  ∀ (x : Reg) (s : State), ∃ t u,
    exec (.skp x) s = .next t ∧ ControlFrame s t ∧ SameStack s t ∧
    exec (.sknp x) s = .next u ∧ ControlFrame s u ∧ SameStack s u ∧
    (∀ k : Key, (readV x s).toNat = k.val → s.keypad.getLsbD k.val = true → t.pc = s.pc + 2 + 2 ∧ u.pc = s.pc + 2) ∧
    (∀ k : Key, (readV x s).toNat = k.val → s.keypad.getLsbD k.val = false → t.pc = s.pc + 2 ∧ u.pc = s.pc + 2 + 2) ∧
    (15 < (readV x s).toNat → t.pc = s.pc + 2 ∧ u.pc = s.pc + 2 + 2)

/-- R208, R209, R210: the copies between a register and a timer. -/
def Obligations.TimerMovesCopyOneByte : Prop :=
  ∀ (x : Reg) (s : State),
    (∃ t, exec (.ldVxDT x) s = .next t ∧ readV x t = s.dt ∧ SameRegsBut x s t ∧ t.pc = s.pc + 2 ∧ RegisterFrame s t) ∧
    (∃ t, exec (.ldDTVx x) s = .next t ∧ t.dt = readV x s ∧ t.st = s.st ∧ t.pc = s.pc + 2 ∧ ControlFrame { s with dt := readV x s } t ∧
      SameStack s t) ∧
    (∃ t, exec (.ldSTVx x) s = .next t ∧ t.st = readV x s ∧ t.dt = s.dt ∧ t.pc = s.pc + 2 ∧ ControlFrame { s with st := readV x s } t ∧
      SameStack s t)

/-- R211: wait-for-key suspends the machine past the instruction, whatever keys are held; steps, ticks and releases leave it waiting with
its register untouched; the next key press writes the key code, sets its mask bit and lets it run, and changes nothing else (R254). What
ends a wait is the spec's decision D15 (log 14). -/
def Obligations.WaitForKeySuspendsUntilAKeyPress : Prop :=
  ∀ (x : Reg) (s : State),
    (∃ t, exec (.ldVxK x) s = .next t ∧ t.runState = .waitingForKey x ∧ t.pc = s.pc + 2 ∧
      ControlFrame { s with runState := .waitingForKey x } t ∧ SameStack s t) ∧
    (s.runState = .waitingForKey x →
      step s = .next s ∧ (tickTimers s).runState = .waitingForKey x ∧ SameRegs s (tickTimers s) ∧
      ∀ k : Key, (keyUp k s).runState = .waitingForKey x ∧ SameRegs s (keyUp k s) ∧
        (keyDown k s).runState = .running ∧ (readV x (keyDown k s)).toNat = k.val ∧ SameRegsBut x s (keyDown k s) ∧
        (∀ j : Key, (keyDown k s).keypad.getLsbD j.val = (decide (j = k) || s.keypad.getLsbD j.val)) ∧ (keyDown k s).pc = s.pc ∧
        RegisterFrame { s with keypad := (keyDown k s).keypad, runState := .running } (keyDown k s))

/-- R251: a tick lowers each timer by one if it is not 0, and changes nothing else, in every run state (the spec's decision D17, log 16). -/
def Obligations.TickCountsEachTimerDown : Prop :=
  ∀ s : State,
    (tickTimers s).dt.toNat = s.dt.toNat - 1 ∧ (tickTimers s).st.toNat = s.st.toNat - 1 ∧
    tickTimers s = { s with dt := (tickTimers s).dt, st := (tickTimers s).st }

/-- R254, R255: a key event sets or clears its own bit and no other; outside a wait it changes nothing else (the spec's decisions D15, D25;
log 14, log 24). What a press changes in a wait is WaitForKeySuspendsUntilAKeyPress. -/
def Obligations.KeyEventsSetAndClearTheirBit : Prop :=
  ∀ (k : Key) (s : State),
    (∀ j : Key, (keyDown k s).keypad.getLsbD j.val = (decide (j = k) || s.keypad.getLsbD j.val)) ∧
    (∀ j : Key, (keyUp k s).keypad.getLsbD j.val = (!(decide (j = k)) && s.keypad.getLsbD j.val)) ∧
    keyUp k s = { s with keypad := (keyUp k s).keypad } ∧
    ((∀ x, s.runState ≠ .waitingForKey x) → keyDown k s = { s with keypad := (keyDown k s).keypad })

/-! ### Index register and memory -/

/-- R170, R171: set index and add to index, modulo `2^16`, no flag, no fault. -/
def Obligations.IndexInstructionsWriteOnlyI : Prop :=
  (∀ (nnn : Addr12) (s : State), ∃ t, exec (.ldI nnn) s = .next t ∧ t.i.toNat = nnn.toNat ∧ t.pc = s.pc + 2 ∧ IndexFrame s t) ∧
  (∀ (x : Reg) (s : State), ∃ t, exec (.addI x) s = .next t ∧ t.i.toNat = (s.i.toNat + (readV x s).toNat) % 65536 ∧ t.pc = s.pc + 2 ∧
    IndexFrame s t)

/-- R172: the glyph address is five times the whole register value; no masking above 15 is the spec's decision D24 (log 23). -/
def Obligations.GlyphAddressIsFiveTimesTheRegister : Prop :=
  ∀ (x : Reg) (s : State), ∃ t, exec (.ldF x) s = .next t ∧ t.i.toNat = 5 * (readV x s).toNat ∧ t.pc = s.pc + 2 ∧ IndexFrame s t

/-- R173: the three decimal digits go to `I`, `I+1`, `I+2` and nowhere else. `I` unchanged is the spec's decision D21 (log 20). -/
def Obligations.BcdStoresThreeDigitsAtI : Prop :=
  ∀ (x : Reg) (s : State), s.i.toNat + 2 ≤ 0xFFF →
    ∃ t, exec (.ldB x) s = .next t ∧
      (byteAt t.mem s.i.toNat).toNat = (readV x s).toNat / 100 ∧
      (byteAt t.mem (s.i.toNat + 1)).toNat = (readV x s).toNat / 10 % 10 ∧
      (byteAt t.mem (s.i.toNat + 2)).toNat = (readV x s).toNat % 10 ∧
      SameMemoryOutside s.i.toNat 3 s t ∧ t.pc = s.pc + 2 ∧ StoreFrame s t

/-- R174: `V[0]`..`V[x]` go to `I`..`I+x` and nowhere else. `I` unchanged is the spec's decision D21 (log 20). -/
def Obligations.DumpStoresTheRegistersAtI : Prop :=
  ∀ (x : Reg) (s : State), s.i.toNat + x.val ≤ 0xFFF →
    ∃ t, exec (.ldMemVx x) s = .next t ∧
      (∀ r : Reg, r.val ≤ x.val → byteAt t.mem (s.i.toNat + r.val) = readV r s) ∧
      SameMemoryOutside s.i.toNat (x.val + 1) s t ∧ t.pc = s.pc + 2 ∧ StoreFrame s t

/-- R175: `I`..`I+x` go to `V[0]`..`V[x]`; the other registers, memory and `I` stay (`I`: the spec's decision D21, log 20). -/
def Obligations.LoadFillsTheRegistersFromI : Prop :=
  ∀ (x : Reg) (s : State), s.i.toNat + x.val ≤ 0xFFF →
    ∃ t, exec (.ldVxMem x) s = .next t ∧
      (∀ r : Reg, r.val ≤ x.val → readV r t = byteAt s.mem (s.i.toNat + r.val)) ∧
      (∀ r : Reg, x.val < r.val → readV r t = readV r s) ∧ t.pc = s.pc + 2 ∧ RegisterFrame s t

/-! ### Display -/

/-- R191: clear screen clears every pixel and changes nothing else, `VF` included. -/
def Obligations.ClsClearsEveryPixel : Prop :=
  ∀ s : State, ∃ t, exec .cls s = .next t ∧ (∀ cx cy, pixelAt t.disp cx cy = false) ∧ SameRegs s t ∧ t.pc = s.pc + 2 ∧ DisplayFrame s t

/-- R192, R194 to R197: drawing is the pixel by pixel exclusive or with the wrapped sprite, and the flag is the collision of the whole draw,
for every position, row count (0 included: decision D13, log 12) and register number (flag last: D5, log 4). Bit and row order are the
spec's decision D12 (log 11), and that a draw leaves `I` is R177's reading, its decision D21 (log 20). -/
def Obligations.DrawXorsTheSpriteAndFlagsCollision : Prop :=
  ∀ (x y : Reg) (n : Nibble) (s : State), n.toNat = 0 ∨ s.i.toNat + n.toNat - 1 ≤ 0xFFF →
    ∃ t, exec (.drw x y n) s = .next t ∧
      (∀ cx cy, ¬ spriteCovers (readV x s) (readV y s) n.toNat s cx cy → pixelAt t.disp cx cy = pixelAt s.disp cx cy) ∧
      (∀ cx cy, spriteCovers (readV x s) (readV y s) n.toNat s cx cy → pixelAt t.disp cx cy = !(pixelAt s.disp cx cy)) ∧
      (spriteCollides (readV x s) (readV y s) n.toNat s → readV 15 t = 1) ∧
      (¬ spriteCollides (readV x s) (readV y s) n.toNat s → readV 15 t = 0) ∧
      SameRegsBut 15 s t ∧ t.pc = s.pc + 2 ∧ DisplayFrame s t

/-- The source's testable property (95_test_vectors.md S9) for every sprite and position: the same draw again gives the old display back,
and reports a collision exactly when a bit of the sprite was drawn and the first draw had set one of its pixels. Where the position
stands in `VF`, which the first draw writes, the second draw is at the position `VF` then gives (flag last: the spec's decision D5,
log 4). Which pixels a sprite covers is its bit and row order D12 (log 11), and `n = 0` its decision D13 (log 12). That both draws read
the sprite at one `I` rests on a draw leaving `I`, R177's reading, its decision D21 (log 20). -/
def Obligations.DrawingTwiceRestoresTheDisplay : Prop :=
  ∀ (x y : Reg) (n : Nibble) (s : State), (n.toNat = 0 ∨ s.i.toNat + n.toNat - 1 ≤ 0xFFF) →
    ∃ t u, exec (.drw x y n) s = .next t ∧ exec (.drw x y n) t = .next u ∧
      (x ≠ 15 → y ≠ 15 → SameDisplay s u ∧
        (readV 15 u = 1 ↔ ∃ cx cy, spriteCovers (readV x s) (readV y s) n.toNat s cx cy ∧ pixelAt s.disp cx cy = false)) ∧
      (∀ cx cy, ¬ spriteCovers (readV x t) (readV y t) n.toNat s cx cy → pixelAt u.disp cx cy = pixelAt t.disp cx cy) ∧
      (∀ cx cy, spriteCovers (readV x t) (readV y t) n.toNat s cx cy → pixelAt u.disp cx cy = !(pixelAt t.disp cx cy))

/-- R256, R258: the observers: pixel coordinates wrap, sound is on while `ST` is not 0, in every run state (the spec's decision D28,
log 24). -/
def Obligations.ObserversReadTheCurrentState : Prop :=
  ∀ (cx cy : Nat) (s : State),
    pixel cx cy s = pixelAt s.disp ⟨cx % 64, Nat.mod_lt _ (by decide)⟩ ⟨cy % 32, Nat.mod_lt _ (by decide)⟩ ∧
    pixel (cx + 64) (cy + 32) s = pixel cx cy s ∧ (soundActive s = true ↔ s.st ≠ 0)

/-! ### Reset and load -/

/-- R50, R280: the state after `reset`, from any state: the document's `Stopped`, and the values of the spec's decisions D10, D11, D27
(log 9, log 10). -/
def Obligations.ResetGivesTheResetTable : Prop :=
  ∀ s : State,
    (resetMachine s).runState = .stopped ∧ (∀ r : Reg, readV r (resetMachine s) = 0) ∧ (resetMachine s).i = 0 ∧
    (resetMachine s).pc = 0x0200 ∧ (resetMachine s).depth.val = 0 ∧ (resetMachine s).dt = 0 ∧ (resetMachine s).st = 0 ∧
    (resetMachine s).keypad = 0 ∧ (∀ cx cy, pixelAt (resetMachine s).disp cx cy = false) ∧ (resetMachine s).programLength = 0 ∧
    (∀ k : Fin 16, (resetMachine s).stack[k.val] = 0) ∧
    (∀ a, a < 80 → byteAt (resetMachine s).mem a = Font.table.getD a 0) ∧ (∀ a, 80 ≤ a → byteAt (resetMachine s).mem a = 0)

/-- R286, R288: a load in `Stopped` of at most 3584 bytes installs the image and changes nothing else but length and run state; outside
`Stopped` a load is refused and changes nothing (the spec's decisions D18, D29; log 17). -/
def Obligations.LoadInstallsTheImageOnlyWhenStopped : Prop :=
  ∀ (bytes : List Byte) (s : State),
    (s.runState = .stopped → bytes.length ≤ 3584 → ∃ t, loadProgram bytes s = (.ok, t) ∧
      (∀ (k : Nat) (h : k < bytes.length), byteAt t.mem (0x200 + k) = bytes[k]) ∧ SameMemoryOutside 0x200 bytes.length s t ∧
      t = { s with mem := t.mem, programLength := bytes.length, runState := .loaded }) ∧
    (s.runState ≠ .stopped → loadProgram bytes s = (.notStopped, s))

/-- R287: an image of more than 3584 bytes is refused whole. -/
def Obligations.TooLargeProgramChangesNothing : Prop :=
  ∀ (bytes : List Byte) (s : State), s.runState = .stopped → 3584 < bytes.length →
    loadProgram bytes s = (.programTooLarge, s)

/-! ### Well-formed programs -/

/-- R27, R71, R295: as long as a program keeps its duties, every step leaves `pc` and the outstanding return addresses even and not below
`0x200`, leaves the font region as it was, and does not halt. The duties are the spec's reading (decisions D6, D9; log 5, log 8), and that a
`Loaded` machine executes in its first step is D16 (log 15). -/
def Obligations.DutifulStepKeepsCodeAddressesAndTheFont : Prop :=
  ∀ (w : Word) (i : Instr) (s t : State), s.canStep → s.codeAddresses → fetch s = .ok w → decode w = .known i → dutiful i s →
    step s = .next t →
    t.codeAddresses ∧ ¬ t.isHalted ∧ ∀ a, a < 0x200 → byteAt t.mem a = byteAt s.mem a

/-! ### The result of a step -/

/-- R127: what the host receives from a step that may execute: the record where this very step halts; else `Ok` where the word fetched was a
known instruction, and the report of the word and its address where it was Unknown. The names and contents of the results are the
spec's decision D23, the record D20, the first step in `Loaded` D16 (log 22, log 19, log 15). -/
def Obligations.StepReportsWhatTheStepDid : Prop :=
  ∀ s t : State, s.canStep → step s = .next t →
    (∀ r, t.runState = .halted r → stepReport s = .next (.halted r)) ∧
    (¬ t.isHalted → ∃ w, fetch s = .ok w ∧
      (∀ i, decode w = .known i → stepReport s = .next .ok) ∧
      (∀ u, decode w = .unknown u → stepReport s = .next (.unknownReport w s.pc)))
end

