-- ==== Sys2Proof/Laws/State.lean ====
section
/-! SUPPORT. One lemma per field per update, so that no later proof unfolds a record update. -/

namespace Sys2Proof.Machine

/-! ### writeV -/

@[simp] theorem writeV_mem (r : Reg) (b : Byte) (s : State) : (writeV r b s).mem = s.mem := rfl
@[simp] theorem writeV_v (r : Reg) (b : Byte) (s : State) : (writeV r b s).v = s.v.set r.val b := rfl
@[simp] theorem writeV_i (r : Reg) (b : Byte) (s : State) : (writeV r b s).i = s.i := rfl
@[simp] theorem writeV_pc (r : Reg) (b : Byte) (s : State) : (writeV r b s).pc = s.pc := rfl
@[simp] theorem writeV_stack (r : Reg) (b : Byte) (s : State) : (writeV r b s).stack = s.stack := rfl
@[simp] theorem writeV_depth (r : Reg) (b : Byte) (s : State) : (writeV r b s).depth = s.depth := rfl
@[simp] theorem writeV_dt (r : Reg) (b : Byte) (s : State) : (writeV r b s).dt = s.dt := rfl
@[simp] theorem writeV_st (r : Reg) (b : Byte) (s : State) : (writeV r b s).st = s.st := rfl
@[simp] theorem writeV_keypad (r : Reg) (b : Byte) (s : State) : (writeV r b s).keypad = s.keypad := rfl
@[simp] theorem writeV_disp (r : Reg) (b : Byte) (s : State) : (writeV r b s).disp = s.disp := rfl
@[simp] theorem writeV_runState (r : Reg) (b : Byte) (s : State) : (writeV r b s).runState = s.runState := rfl
@[simp] theorem writeV_programLength (r : Reg) (b : Byte) (s : State) : (writeV r b s).programLength = s.programLength := rfl
@[simp] theorem writeV_draws (r : Reg) (b : Byte) (s : State) : (writeV r b s).draws = s.draws := rfl

/-! ### writeI -/

@[simp] theorem writeI_mem (a : Word) (s : State) : (writeI a s).mem = s.mem := rfl
@[simp] theorem writeI_v (a : Word) (s : State) : (writeI a s).v = s.v := rfl
@[simp] theorem writeI_i (a : Word) (s : State) : (writeI a s).i = a := rfl
@[simp] theorem writeI_pc (a : Word) (s : State) : (writeI a s).pc = s.pc := rfl
@[simp] theorem writeI_stack (a : Word) (s : State) : (writeI a s).stack = s.stack := rfl
@[simp] theorem writeI_depth (a : Word) (s : State) : (writeI a s).depth = s.depth := rfl
@[simp] theorem writeI_dt (a : Word) (s : State) : (writeI a s).dt = s.dt := rfl
@[simp] theorem writeI_st (a : Word) (s : State) : (writeI a s).st = s.st := rfl
@[simp] theorem writeI_keypad (a : Word) (s : State) : (writeI a s).keypad = s.keypad := rfl
@[simp] theorem writeI_disp (a : Word) (s : State) : (writeI a s).disp = s.disp := rfl
@[simp] theorem writeI_runState (a : Word) (s : State) : (writeI a s).runState = s.runState := rfl
@[simp] theorem writeI_programLength (a : Word) (s : State) : (writeI a s).programLength = s.programLength := rfl
@[simp] theorem writeI_draws (a : Word) (s : State) : (writeI a s).draws = s.draws := rfl

/-! ### jumpTo -/

@[simp] theorem jumpTo_mem (t : Word) (s : State) : (jumpTo t s).mem = s.mem := rfl
@[simp] theorem jumpTo_v (t : Word) (s : State) : (jumpTo t s).v = s.v := rfl
@[simp] theorem jumpTo_i (t : Word) (s : State) : (jumpTo t s).i = s.i := rfl
@[simp] theorem jumpTo_pc (t : Word) (s : State) : (jumpTo t s).pc = t := rfl
@[simp] theorem jumpTo_stack (t : Word) (s : State) : (jumpTo t s).stack = s.stack := rfl
@[simp] theorem jumpTo_depth (t : Word) (s : State) : (jumpTo t s).depth = s.depth := rfl
@[simp] theorem jumpTo_dt (t : Word) (s : State) : (jumpTo t s).dt = s.dt := rfl
@[simp] theorem jumpTo_st (t : Word) (s : State) : (jumpTo t s).st = s.st := rfl
@[simp] theorem jumpTo_keypad (t : Word) (s : State) : (jumpTo t s).keypad = s.keypad := rfl
@[simp] theorem jumpTo_disp (t : Word) (s : State) : (jumpTo t s).disp = s.disp := rfl
@[simp] theorem jumpTo_runState (t : Word) (s : State) : (jumpTo t s).runState = s.runState := rfl
@[simp] theorem jumpTo_programLength (t : Word) (s : State) : (jumpTo t s).programLength = s.programLength := rfl
@[simp] theorem jumpTo_draws (t : Word) (s : State) : (jumpTo t s).draws = s.draws := rfl

/-! ### advance -/

@[simp] theorem advance_mem (s : State) : (advance s).mem = s.mem := rfl
@[simp] theorem advance_v (s : State) : (advance s).v = s.v := rfl
@[simp] theorem advance_i (s : State) : (advance s).i = s.i := rfl
@[simp] theorem advance_pc (s : State) : (advance s).pc = s.pc + 2 := rfl
@[simp] theorem advance_stack (s : State) : (advance s).stack = s.stack := rfl
@[simp] theorem advance_depth (s : State) : (advance s).depth = s.depth := rfl
@[simp] theorem advance_dt (s : State) : (advance s).dt = s.dt := rfl
@[simp] theorem advance_st (s : State) : (advance s).st = s.st := rfl
@[simp] theorem advance_keypad (s : State) : (advance s).keypad = s.keypad := rfl
@[simp] theorem advance_disp (s : State) : (advance s).disp = s.disp := rfl
@[simp] theorem advance_runState (s : State) : (advance s).runState = s.runState := rfl
@[simp] theorem advance_programLength (s : State) : (advance s).programLength = s.programLength := rfl
@[simp] theorem advance_draws (s : State) : (advance s).draws = s.draws := rfl

/-! ### skipIf -/

@[simp] theorem skipIf_mem (c : Bool) (s : State) : (skipIf c s).mem = s.mem := rfl
@[simp] theorem skipIf_v (c : Bool) (s : State) : (skipIf c s).v = s.v := rfl
@[simp] theorem skipIf_i (c : Bool) (s : State) : (skipIf c s).i = s.i := rfl
@[simp] theorem skipIf_pc (c : Bool) (s : State) : (skipIf c s).pc = if c then s.pc + 2 + 2 else s.pc + 2 := rfl
@[simp] theorem skipIf_stack (c : Bool) (s : State) : (skipIf c s).stack = s.stack := rfl
@[simp] theorem skipIf_depth (c : Bool) (s : State) : (skipIf c s).depth = s.depth := rfl
@[simp] theorem skipIf_dt (c : Bool) (s : State) : (skipIf c s).dt = s.dt := rfl
@[simp] theorem skipIf_st (c : Bool) (s : State) : (skipIf c s).st = s.st := rfl
@[simp] theorem skipIf_keypad (c : Bool) (s : State) : (skipIf c s).keypad = s.keypad := rfl
@[simp] theorem skipIf_disp (c : Bool) (s : State) : (skipIf c s).disp = s.disp := rfl
@[simp] theorem skipIf_runState (c : Bool) (s : State) : (skipIf c s).runState = s.runState := rfl
@[simp] theorem skipIf_programLength (c : Bool) (s : State) : (skipIf c s).programLength = s.programLength := rfl
@[simp] theorem skipIf_draws (c : Bool) (s : State) : (skipIf c s).draws = s.draws := rfl

/-! ### setFlag -/

@[simp] theorem setFlag_mem (c : Bool) (s : State) : (setFlag c s).mem = s.mem := rfl
@[simp] theorem setFlag_v (c : Bool) (s : State) : (setFlag c s).v = s.v.set 15 (flagByte c) := rfl
@[simp] theorem setFlag_i (c : Bool) (s : State) : (setFlag c s).i = s.i := rfl
@[simp] theorem setFlag_pc (c : Bool) (s : State) : (setFlag c s).pc = s.pc := rfl
@[simp] theorem setFlag_stack (c : Bool) (s : State) : (setFlag c s).stack = s.stack := rfl
@[simp] theorem setFlag_depth (c : Bool) (s : State) : (setFlag c s).depth = s.depth := rfl
@[simp] theorem setFlag_dt (c : Bool) (s : State) : (setFlag c s).dt = s.dt := rfl
@[simp] theorem setFlag_st (c : Bool) (s : State) : (setFlag c s).st = s.st := rfl
@[simp] theorem setFlag_keypad (c : Bool) (s : State) : (setFlag c s).keypad = s.keypad := rfl
@[simp] theorem setFlag_disp (c : Bool) (s : State) : (setFlag c s).disp = s.disp := rfl
@[simp] theorem setFlag_runState (c : Bool) (s : State) : (setFlag c s).runState = s.runState := rfl
@[simp] theorem setFlag_programLength (c : Bool) (s : State) : (setFlag c s).programLength = s.programLength := rfl
@[simp] theorem setFlag_draws (c : Bool) (s : State) : (setFlag c s).draws = s.draws := rfl

/-! ### writeResultThenFlag -/

@[simp] theorem writeResultThenFlag_mem (x : Reg) (r : Byte) (c : Bool) (s : State) : (writeResultThenFlag x r c s).mem = s.mem := rfl
@[simp] theorem writeResultThenFlag_v (x : Reg) (r : Byte) (c : Bool) (s : State) : (writeResultThenFlag x r c s).v = (s.v.set x.val r).set 15 (flagByte c) := rfl
@[simp] theorem writeResultThenFlag_i (x : Reg) (r : Byte) (c : Bool) (s : State) : (writeResultThenFlag x r c s).i = s.i := rfl
@[simp] theorem writeResultThenFlag_pc (x : Reg) (r : Byte) (c : Bool) (s : State) : (writeResultThenFlag x r c s).pc = s.pc := rfl
@[simp] theorem writeResultThenFlag_stack (x : Reg) (r : Byte) (c : Bool) (s : State) : (writeResultThenFlag x r c s).stack = s.stack := rfl
@[simp] theorem writeResultThenFlag_depth (x : Reg) (r : Byte) (c : Bool) (s : State) : (writeResultThenFlag x r c s).depth = s.depth := rfl
@[simp] theorem writeResultThenFlag_dt (x : Reg) (r : Byte) (c : Bool) (s : State) : (writeResultThenFlag x r c s).dt = s.dt := rfl
@[simp] theorem writeResultThenFlag_st (x : Reg) (r : Byte) (c : Bool) (s : State) : (writeResultThenFlag x r c s).st = s.st := rfl
@[simp] theorem writeResultThenFlag_keypad (x : Reg) (r : Byte) (c : Bool) (s : State) : (writeResultThenFlag x r c s).keypad = s.keypad := rfl
@[simp] theorem writeResultThenFlag_disp (x : Reg) (r : Byte) (c : Bool) (s : State) : (writeResultThenFlag x r c s).disp = s.disp := rfl
@[simp] theorem writeResultThenFlag_runState (x : Reg) (r : Byte) (c : Bool) (s : State) : (writeResultThenFlag x r c s).runState = s.runState := rfl
@[simp] theorem writeResultThenFlag_programLength (x : Reg) (r : Byte) (c : Bool) (s : State) : (writeResultThenFlag x r c s).programLength = s.programLength := rfl
@[simp] theorem writeResultThenFlag_draws (x : Reg) (r : Byte) (c : Bool) (s : State) : (writeResultThenFlag x r c s).draws = s.draws := rfl

/-! ### loadRegs -/

@[simp] theorem loadRegs_mem (bs : List Byte) (s : State) : (loadRegs bs s).mem = s.mem := rfl
@[simp] theorem loadRegs_v (bs : List Byte) (s : State) : (loadRegs bs s).v = setRegsFrom s.v 0 bs := rfl
@[simp] theorem loadRegs_i (bs : List Byte) (s : State) : (loadRegs bs s).i = s.i := rfl
@[simp] theorem loadRegs_pc (bs : List Byte) (s : State) : (loadRegs bs s).pc = s.pc := rfl
@[simp] theorem loadRegs_stack (bs : List Byte) (s : State) : (loadRegs bs s).stack = s.stack := rfl
@[simp] theorem loadRegs_depth (bs : List Byte) (s : State) : (loadRegs bs s).depth = s.depth := rfl
@[simp] theorem loadRegs_dt (bs : List Byte) (s : State) : (loadRegs bs s).dt = s.dt := rfl
@[simp] theorem loadRegs_st (bs : List Byte) (s : State) : (loadRegs bs s).st = s.st := rfl
@[simp] theorem loadRegs_keypad (bs : List Byte) (s : State) : (loadRegs bs s).keypad = s.keypad := rfl
@[simp] theorem loadRegs_disp (bs : List Byte) (s : State) : (loadRegs bs s).disp = s.disp := rfl
@[simp] theorem loadRegs_runState (bs : List Byte) (s : State) : (loadRegs bs s).runState = s.runState := rfl
@[simp] theorem loadRegs_programLength (bs : List Byte) (s : State) : (loadRegs bs s).programLength = s.programLength := rfl
@[simp] theorem loadRegs_draws (bs : List Byte) (s : State) : (loadRegs bs s).draws = s.draws := rfl

/-! ### takeFault -/

@[simp] theorem takeFault_mem (f : Fault) (s : State) : (takeFault f s).mem = s.mem := rfl
@[simp] theorem takeFault_v (f : Fault) (s : State) : (takeFault f s).v = s.v := rfl
@[simp] theorem takeFault_i (f : Fault) (s : State) : (takeFault f s).i = s.i := rfl
@[simp] theorem takeFault_pc (f : Fault) (s : State) : (takeFault f s).pc = s.pc := rfl
@[simp] theorem takeFault_stack (f : Fault) (s : State) : (takeFault f s).stack = s.stack := rfl
@[simp] theorem takeFault_depth (f : Fault) (s : State) : (takeFault f s).depth = s.depth := rfl
@[simp] theorem takeFault_dt (f : Fault) (s : State) : (takeFault f s).dt = s.dt := rfl
@[simp] theorem takeFault_st (f : Fault) (s : State) : (takeFault f s).st = s.st := rfl
@[simp] theorem takeFault_keypad (f : Fault) (s : State) : (takeFault f s).keypad = s.keypad := rfl
@[simp] theorem takeFault_disp (f : Fault) (s : State) : (takeFault f s).disp = s.disp := rfl
@[simp] theorem takeFault_runState (f : Fault) (s : State) : (takeFault f s).runState = .halted ⟨f, s.pc⟩ := rfl
@[simp] theorem takeFault_programLength (f : Fault) (s : State) : (takeFault f s).programLength = s.programLength := rfl
@[simp] theorem takeFault_draws (f : Fault) (s : State) : (takeFault f s).draws = s.draws := rfl

/-! ### drawRandom -/

@[simp] theorem drawRandom_mem (b : Byte) (x : Reg) (kk : Byte) (s : State) : (drawRandom b x kk s).mem = s.mem := rfl
@[simp] theorem drawRandom_v (b : Byte) (x : Reg) (kk : Byte) (s : State) : (drawRandom b x kk s).v = s.v.set x.val (b &&& kk) := rfl
@[simp] theorem drawRandom_i (b : Byte) (x : Reg) (kk : Byte) (s : State) : (drawRandom b x kk s).i = s.i := rfl
@[simp] theorem drawRandom_pc (b : Byte) (x : Reg) (kk : Byte) (s : State) : (drawRandom b x kk s).pc = s.pc + 2 := rfl
@[simp] theorem drawRandom_stack (b : Byte) (x : Reg) (kk : Byte) (s : State) : (drawRandom b x kk s).stack = s.stack := rfl
@[simp] theorem drawRandom_depth (b : Byte) (x : Reg) (kk : Byte) (s : State) : (drawRandom b x kk s).depth = s.depth := rfl
@[simp] theorem drawRandom_dt (b : Byte) (x : Reg) (kk : Byte) (s : State) : (drawRandom b x kk s).dt = s.dt := rfl
@[simp] theorem drawRandom_st (b : Byte) (x : Reg) (kk : Byte) (s : State) : (drawRandom b x kk s).st = s.st := rfl
@[simp] theorem drawRandom_keypad (b : Byte) (x : Reg) (kk : Byte) (s : State) : (drawRandom b x kk s).keypad = s.keypad := rfl
@[simp] theorem drawRandom_disp (b : Byte) (x : Reg) (kk : Byte) (s : State) : (drawRandom b x kk s).disp = s.disp := rfl
@[simp] theorem drawRandom_runState (b : Byte) (x : Reg) (kk : Byte) (s : State) : (drawRandom b x kk s).runState = s.runState := rfl
@[simp] theorem drawRandom_programLength (b : Byte) (x : Reg) (kk : Byte) (s : State) : (drawRandom b x kk s).programLength = s.programLength := rfl
@[simp] theorem drawRandom_draws (b : Byte) (x : Reg) (kk : Byte) (s : State) : (drawRandom b x kk s).draws = s.draws + 1 := rfl

/-! ### drawSprite -/

@[simp] theorem drawSprite_mem (x y : Byte) (rows : List Byte) (s : State) : (drawSprite x y rows s).mem = s.mem := rfl
@[simp] theorem drawSprite_v (x y : Byte) (rows : List Byte) (s : State) : (drawSprite x y rows s).v = s.v.set 15 (flagByte (blit x y rows s.disp).collided) := rfl
@[simp] theorem drawSprite_i (x y : Byte) (rows : List Byte) (s : State) : (drawSprite x y rows s).i = s.i := rfl
@[simp] theorem drawSprite_pc (x y : Byte) (rows : List Byte) (s : State) : (drawSprite x y rows s).pc = s.pc := rfl
@[simp] theorem drawSprite_stack (x y : Byte) (rows : List Byte) (s : State) : (drawSprite x y rows s).stack = s.stack := rfl
@[simp] theorem drawSprite_depth (x y : Byte) (rows : List Byte) (s : State) : (drawSprite x y rows s).depth = s.depth := rfl
@[simp] theorem drawSprite_dt (x y : Byte) (rows : List Byte) (s : State) : (drawSprite x y rows s).dt = s.dt := rfl
@[simp] theorem drawSprite_st (x y : Byte) (rows : List Byte) (s : State) : (drawSprite x y rows s).st = s.st := rfl
@[simp] theorem drawSprite_keypad (x y : Byte) (rows : List Byte) (s : State) : (drawSprite x y rows s).keypad = s.keypad := rfl
@[simp] theorem drawSprite_disp (x y : Byte) (rows : List Byte) (s : State) : (drawSprite x y rows s).disp = (blit x y rows s.disp).disp := rfl
@[simp] theorem drawSprite_runState (x y : Byte) (rows : List Byte) (s : State) : (drawSprite x y rows s).runState = s.runState := rfl
@[simp] theorem drawSprite_programLength (x y : Byte) (rows : List Byte) (s : State) : (drawSprite x y rows s).programLength = s.programLength := rfl
@[simp] theorem drawSprite_draws (x y : Byte) (rows : List Byte) (s : State) : (drawSprite x y rows s).draws = s.draws := rfl

/-! ### tickTimers -/

@[simp] theorem tickTimers_mem (s : State) : (tickTimers s).mem = s.mem := rfl
@[simp] theorem tickTimers_v (s : State) : (tickTimers s).v = s.v := rfl
@[simp] theorem tickTimers_i (s : State) : (tickTimers s).i = s.i := rfl
@[simp] theorem tickTimers_pc (s : State) : (tickTimers s).pc = s.pc := rfl
@[simp] theorem tickTimers_stack (s : State) : (tickTimers s).stack = s.stack := rfl
@[simp] theorem tickTimers_depth (s : State) : (tickTimers s).depth = s.depth := rfl
@[simp] theorem tickTimers_dt (s : State) : (tickTimers s).dt = countDown s.dt := rfl
@[simp] theorem tickTimers_st (s : State) : (tickTimers s).st = countDown s.st := rfl
@[simp] theorem tickTimers_keypad (s : State) : (tickTimers s).keypad = s.keypad := rfl
@[simp] theorem tickTimers_disp (s : State) : (tickTimers s).disp = s.disp := rfl
@[simp] theorem tickTimers_runState (s : State) : (tickTimers s).runState = s.runState := rfl
@[simp] theorem tickTimers_programLength (s : State) : (tickTimers s).programLength = s.programLength := rfl
@[simp] theorem tickTimers_draws (s : State) : (tickTimers s).draws = s.draws := rfl

/-! ### keyUp -/

@[simp] theorem keyUp_mem (k : Key) (s : State) : (keyUp k s).mem = s.mem := rfl
@[simp] theorem keyUp_v (k : Key) (s : State) : (keyUp k s).v = s.v := rfl
@[simp] theorem keyUp_i (k : Key) (s : State) : (keyUp k s).i = s.i := rfl
@[simp] theorem keyUp_pc (k : Key) (s : State) : (keyUp k s).pc = s.pc := rfl
@[simp] theorem keyUp_stack (k : Key) (s : State) : (keyUp k s).stack = s.stack := rfl
@[simp] theorem keyUp_depth (k : Key) (s : State) : (keyUp k s).depth = s.depth := rfl
@[simp] theorem keyUp_dt (k : Key) (s : State) : (keyUp k s).dt = s.dt := rfl
@[simp] theorem keyUp_st (k : Key) (s : State) : (keyUp k s).st = s.st := rfl
@[simp] theorem keyUp_keypad (k : Key) (s : State) : (keyUp k s).keypad = s.keypad &&& ~~~(keyMask k) := rfl
@[simp] theorem keyUp_disp (k : Key) (s : State) : (keyUp k s).disp = s.disp := rfl
@[simp] theorem keyUp_runState (k : Key) (s : State) : (keyUp k s).runState = s.runState := rfl
@[simp] theorem keyUp_programLength (k : Key) (s : State) : (keyUp k s).programLength = s.programLength := rfl
@[simp] theorem keyUp_draws (k : Key) (s : State) : (keyUp k s).draws = s.draws := rfl

/-! ### resetMachine -/

@[simp] theorem resetMachine_mem (s : State) : (resetMachine s).mem = State.reset.mem := rfl
@[simp] theorem resetMachine_v (s : State) : (resetMachine s).v = State.reset.v := rfl
@[simp] theorem resetMachine_i (s : State) : (resetMachine s).i = State.reset.i := rfl
@[simp] theorem resetMachine_pc (s : State) : (resetMachine s).pc = State.reset.pc := rfl
@[simp] theorem resetMachine_stack (s : State) : (resetMachine s).stack = State.reset.stack := rfl
@[simp] theorem resetMachine_depth (s : State) : (resetMachine s).depth = State.reset.depth := rfl
@[simp] theorem resetMachine_dt (s : State) : (resetMachine s).dt = State.reset.dt := rfl
@[simp] theorem resetMachine_st (s : State) : (resetMachine s).st = State.reset.st := rfl
@[simp] theorem resetMachine_keypad (s : State) : (resetMachine s).keypad = State.reset.keypad := rfl
@[simp] theorem resetMachine_disp (s : State) : (resetMachine s).disp = State.reset.disp := rfl
@[simp] theorem resetMachine_runState (s : State) : (resetMachine s).runState = State.reset.runState := rfl
@[simp] theorem resetMachine_programLength (s : State) : (resetMachine s).programLength = State.reset.programLength := rfl
@[simp] theorem resetMachine_draws (s : State) : (resetMachine s).draws = s.draws := rfl

end Sys2Proof.Machine
end

