-- ==== Sys2Proof/Laws/Memory.lean ====
section
/-! SUPPORT. What the memory operations do, said once: read after write, the canonical form, the bounds check. -/

namespace Sys2Proof.Machine

/-! ### One byte -/

theorem eraseCell_cons (a k : Nat) (b : Byte) (m : Memory) :
    eraseCell a ((k, b) :: m) = if k = a then eraseCell a m else (k, b) :: eraseCell a m := by
  by_cases h : k = a <;> simp [eraseCell, h]

theorem byteAt_eraseCell_self (m : Memory) (a : Nat) : byteAt (eraseCell a m) a = unlistedByte a := by
  induction m with
  | nil => rfl
  | cons c rest ih =>
    rw [eraseCell_cons]
    by_cases h : c.1 = a <;> simp [h, byteAt, ih]

theorem byteAt_eraseCell_ne (m : Memory) {a k : Nat} (h : k ≠ a) : byteAt (eraseCell a m) k = byteAt m k := by
  induction m with
  | nil => rfl
  | cons c rest ih =>
    rw [eraseCell_cons]
    by_cases hj : c.1 = a
    · simp [hj, byteAt, Ne.symm h, ih]
    · simp [hj, byteAt, ih]

theorem byteAt_insertCell_ne (m : Memory) {a k : Nat} (b : Byte) (h : k ≠ a) : byteAt (insertCell a b m) k = byteAt m k := by
  induction m with
  | nil => simp [insertCell, byteAt, Ne.symm h]
  | cons c rest ih =>
    obtain ⟨j, d⟩ := c
    by_cases hj : a < j
    · simp [insertCell, hj, byteAt, Ne.symm h]
    · simp [insertCell, hj, byteAt, ih]

theorem byteAt_insertCell_self (m : Memory) (a : Nat) (b : Byte) (h : ∀ c ∈ m, c.1 ≠ a) : byteAt (insertCell a b m) a = b := by
  induction m with
  | nil => simp [insertCell, byteAt]
  | cons c rest ih =>
    obtain ⟨j, d⟩ := c
    have hj : j ≠ a := h (j, d) (by simp)
    by_cases hlt : a < j
    · simp [insertCell, hlt, byteAt]
    · simp [insertCell, hlt, byteAt, hj, ih fun c hc => h c (by simp [hc])]

theorem not_mem_eraseCell (m : Memory) (a : Nat) : ∀ c ∈ eraseCell a m, c.1 ≠ a := by
  simp [eraseCell]

/-- A read after a write: the byte written at its own address, every other byte as before. No premise on the memory's form. -/
theorem byteAt_setByte (m : Memory) (a k : Nat) (b : Byte) :
    byteAt (setByte m a b) k = if k = a then b else byteAt m k := by
  by_cases hk : k = a
  · subst hk
    by_cases hb : b = unlistedByte k
    · simp [setByte, hb, byteAt_eraseCell_self]
    · simp [setByte, hb, byteAt_insertCell_self _ k b (not_mem_eraseCell m k)]
  · by_cases hb : b = unlistedByte a
    · simp [setByte, hb, hk, byteAt_eraseCell_ne m hk]
    · simp [setByte, hb, hk, byteAt_insertCell_ne _ b hk, byteAt_eraseCell_ne m hk]

/-! ### Several bytes -/

theorem byteAt_setBytes_outside (m : Memory) (a k : Nat) (bs : List Byte) (h : k < a ∨ a + bs.length ≤ k) :
    byteAt (setBytes m a bs) k = byteAt m k := by
  induction bs generalizing m a with
  | nil => rfl
  | cons b bs ih =>
    simp only [List.length_cons] at h
    rw [setBytes, ih _ _ (by omega), byteAt_setByte, if_neg (by omega)]

theorem byteAt_setBytes_inside (m : Memory) (a j : Nat) (bs : List Byte) (h : j < bs.length) :
    byteAt (setBytes m a bs) (a + j) = bs[j] := by
  induction bs generalizing m a j with
  | nil => simp at h
  | cons b bs ih =>
    cases j with
    | zero => rw [setBytes, byteAt_setBytes_outside _ _ _ _ (by omega), byteAt_setByte]; simp
    | succ j =>
      have := ih (setByte m a b) (a + 1) j (by simpa using h)
      rw [show a + (j + 1) = a + 1 + j by omega, setBytes, this]
      simp

@[simp] theorem length_bytesFrom (m : Memory) (a n : Nat) : (bytesFrom m a n).length = n := by
  induction n generalizing a with
  | zero => rfl
  | succ n ih => simp [bytesFrom, ih]

theorem getElem_bytesFrom (m : Memory) (a n j : Nat) (h : j < (bytesFrom m a n).length) :
    (bytesFrom m a n)[j] = byteAt m (a + j) := by
  induction n generalizing a j with
  | zero => simp at h
  | succ n ih =>
    cases j with
    | zero => simp [bytesFrom]
    | succ j =>
      have hj : j < n := by simpa using h
      simpa [bytesFrom, Nat.add_assoc, Nat.add_comm 1 j] using ih (a + 1) j (by simpa using hj)

/-! ### The canonical form is kept -/

theorem Memory.wf_nil : Memory.wf [] := by simp [Memory.wf]

theorem eraseCell_wf {m : Memory} (h : Memory.wf m) (a : Nat) : Memory.wf (eraseCell a m) :=
  ⟨h.1.sublist List.filter_sublist, fun c hc => h.2 c (List.mem_of_mem_filter hc)⟩

theorem mem_insertCell {m : Memory} {a : Nat} {b : Byte} {c : Host.Cell} (h : c ∈ insertCell a b m) : c = (a, b) ∨ c ∈ m := by
  induction m with
  | nil => simpa [insertCell] using h
  | cons d rest ih =>
    obtain ⟨k, e⟩ := d
    by_cases hk : a < k
    · simpa [insertCell, hk] using h
    · rcases (by simpa [insertCell, hk] using h : c = (k, e) ∨ c ∈ insertCell a b rest) with rfl | h
      · simp
      · rcases ih h with h | h <;> simp [h]

theorem insertCell_pairwise {m : Memory} (hm : m.Pairwise (fun c d => c.1 < d.1)) (a : Nat) (b : Byte) (ha : ∀ c ∈ m, c.1 ≠ a) :
    (insertCell a b m).Pairwise (fun c d => c.1 < d.1) := by
  induction m with
  | nil => simp [insertCell]
  | cons d rest ih =>
    obtain ⟨k, e⟩ := d
    rw [List.pairwise_cons] at hm
    have hk : k ≠ a := ha (k, e) (by simp)
    by_cases hlt : a < k
    · simp only [insertCell, hlt, if_true, List.pairwise_cons]
      refine ⟨fun c hc => ?_, hm⟩
      rcases List.mem_cons.1 hc with rfl | hc
      · exact hlt
      · exact Nat.lt_trans hlt (hm.1 c hc)
    · simp only [insertCell, hlt, if_false, List.pairwise_cons]
      refine ⟨fun c hc => ?_, ih hm.2 fun c hc => ha c (by simp [hc])⟩
      rcases mem_insertCell hc with rfl | hc
      · show k < a
        omega
      · exact hm.1 c hc

theorem setByte_wf {m : Memory} (h : Memory.wf m) {a : Nat} (ha : a < Config.memSize) (b : Byte) : Memory.wf (setByte m a b) := by
  by_cases hb : b = unlistedByte a
  · simpa [setByte, hb] using eraseCell_wf h a
  · have he := eraseCell_wf h a
    simp only [setByte, hb, if_false]
    refine ⟨insertCell_pairwise he.1 a b (not_mem_eraseCell m a), fun c hc => ?_⟩
    rcases mem_insertCell hc with rfl | hc
    · exact ⟨ha, hb⟩
    · exact he.2 c hc

theorem setBytes_wf {m : Memory} (h : Memory.wf m) {a : Nat} (bs : List Byte) (ha : a + bs.length ≤ Config.memSize) :
    Memory.wf (setBytes m a bs) := by
  induction bs generalizing m a with
  | nil => exact h
  | cons b bs ih =>
    simp only [List.length_cons] at ha
    exact ih (setByte_wf h (by omega) b) (by omega)

theorem reset_memory_wf : Memory.wf State.reset.mem := Memory.wf_nil

/-! ### The checked accesses: everything they can answer -/

theorem readBytes_ok {a n : Nat} (h : n = 0 ∨ a + n ≤ 0x1000) (s : State) : readBytes a n s = .ok (bytesFrom s.mem a n) := by
  simp [readBytes, inBounds, h]

theorem readBytes_error {a n : Nat} (h : n ≠ 0 ∧ 0x1000 < a + n) (s : State) :
    readBytes a n s = .error (.outOfBounds (max a 0x1000)) := by
  simp [readBytes, inBounds, boundsFault, h.1, Nat.not_le.2 h.2]

theorem writeBytes_ok {a : Nat} {bs : List Byte} (h : bs = [] ∨ a + bs.length ≤ 0x1000) (s : State) :
    writeBytes a bs s = .ok { s with mem := setBytes s.mem a bs } := by
  have : bs.length = 0 ∨ a + bs.length ≤ 0x1000 := by simpa using h
  simp only [writeBytes, inBounds, Config.memSize, this, decide_true, if_true]

theorem writeBytes_error {a : Nat} {bs : List Byte} (h : bs ≠ [] ∧ 0x1000 < a + bs.length) (s : State) :
    writeBytes a bs s = .error (.outOfBounds (max a 0x1000)) := by
  simp [writeBytes, inBounds, boundsFault, h.1, Nat.not_le.2 h.2]

theorem readWord_ok {a : Nat} (h : a + 2 ≤ 0x1000) (s : State) : readWord a s = .ok (byteAt s.mem a ++ byteAt s.mem (a + 1)) := by
  simp [readWord, inBounds, h]

theorem readWord_error {a : Nat} (h : 0x1000 < a + 2) (s : State) : readWord a s = .error (.outOfBounds (max a 0x1000)) := by
  simp [readWord, inBounds, boundsFault, Nat.not_le.2 h]

/-- If a checked store succeeds, all its bytes are inside memory and nothing but memory changed. -/
theorem writeBytes_cases {a : Nat} {bs : List Byte} {s t : State} (h : writeBytes a bs s = .ok t) :
    (bs = [] ∨ a + bs.length ≤ 0x1000) ∧ t = { s with mem := setBytes s.mem a bs } := by
  by_cases hb : bs = [] ∨ a + bs.length ≤ 0x1000
  · rw [writeBytes_ok hb] at h
    exact ⟨hb, by simpa using h.symm⟩
  · rw [writeBytes_error (by simpa [not_or] using hb)] at h
    simp at h

/-- A checked store keeps the canonical form. -/
theorem writeBytes_wf {a : Nat} {bs : List Byte} {s t : State} (hs : Memory.wf s.mem) (h : writeBytes a bs s = .ok t) :
    Memory.wf t.mem := by
  obtain ⟨hb, rfl⟩ := writeBytes_cases h
  rcases hb with rfl | hb
  · exact hs
  · exact setBytes_wf hs bs hb

end Sys2Proof.Machine
end

