-- ==== Sys2Proof/Laws/Operands.lean ====
section
/-! SUPPORT. What the register, stack and commit operations do, said once. -/

namespace Sys2Proof.Machine

/-! ### Registers -/

theorem getElem_set_reg (v : Vector Byte 16) (x r : Reg) (b : Byte) :
    (v.set x.val b)[r.val] = if r = x then b else v[r.val] := by
  rw [Vector.getElem_set]
  by_cases h : r = x
  · simp [h]
  · have : x.val ≠ r.val := fun e => h (Fin.ext e.symm)
    simp [h, this]

theorem readV_writeV (x r : Reg) (b : Byte) (s : State) : readV r (writeV x b s) = if r = x then b else readV r s :=
  getElem_set_reg s.v x r b

theorem readV_setFlag (r : Reg) (c : Bool) (s : State) : readV r (setFlag c s) = if r = 15 then flagByte c else readV r s :=
  readV_writeV 15 r (flagByte c) s

/-- The flag wins where the destination is register 15. -/
theorem readV_writeResultThenFlag (x r : Reg) (b : Byte) (c : Bool) (s : State) :
    readV r (writeResultThenFlag x b c s) = if r = 15 then flagByte c else if r = x then b else readV r s := by
  rw [writeResultThenFlag, readV_setFlag, readV_writeV]

@[simp] theorem readV_advance (r : Reg) (s : State) : readV r (advance s) = readV r s := rfl

@[simp] theorem readV_jumpTo (r : Reg) (t : Word) (s : State) : readV r (jumpTo t s) = readV r s := rfl

@[simp] theorem readV_skipIf (r : Reg) (c : Bool) (s : State) : readV r (skipIf c s) = readV r s := rfl

@[simp] theorem readV_takeFault (r : Reg) (f : Fault) (s : State) : readV r (takeFault f s) = readV r s := rfl

theorem setRegsFrom_getElem (v : Vector Byte 16) (k : Nat) (bs : List Byte) (j : Nat) (hj : j < 16) :
    (setRegsFrom v k bs)[j] = if h : k ≤ j ∧ j < k + bs.length then bs[j - k]'(by omega) else v[j] := by
  induction bs generalizing v k with
  | nil => simp [setRegsFrom]
  | cons b bs ih =>
    rw [setRegsFrom, ih]
    by_cases h1 : k + 1 ≤ j ∧ j < k + 1 + bs.length
    · rw [dif_pos h1, dif_pos (by simp; omega)]
      rw [List.getElem_cons, dif_neg (by omega)]
      simp [Nat.sub_sub]
    · rw [dif_neg h1, Vector.getElem_setIfInBounds]
      by_cases h2 : k = j
      · subst h2
        simp
      · rw [if_neg h2, dif_neg (by simp; omega)]

/-- What a register load leaves in register `r`. -/
theorem readV_loadRegs (bs : List Byte) (r : Reg) (s : State) :
    readV r (loadRegs bs s) = if h : r.val < bs.length then bs[r.val] else readV r s := by
  simp [readV, setRegsFrom_getElem]

@[simp] theorem length_regsThrough (x : Reg) (s : State) : (regsThrough x s).length = x.val + 1 := by
  have := x.isLt
  simp [regsThrough]

theorem getElem_regsThrough (x r : Reg) (s : State) (h : r.val < (regsThrough x s).length) : (regsThrough x s)[r.val] = readV r s := by
  simp [regsThrough, readV]

@[simp] theorem length_bcdDigits (b : Byte) : (bcdDigits b).length = 3 := rfl

/-! ### The call stack -/

theorem pushReturn_error {s : State} (h : s.depth.val = 16) (a : Word) : pushReturn a s = .error .stackOverflow := by
  simp [pushReturn, h]

/-- A push that succeeds: there was room, the slot at the old depth holds the address, every other slot and field is as before. -/
theorem pushReturn_cases {a : Word} {s t : State} (h : pushReturn a s = .ok t) :
    ∃ hd : s.depth.val < 16, t = { s with stack := s.stack.set s.depth.val a, depth := ⟨s.depth.val + 1, by omega⟩ } := by
  have := s.depth.isLt
  by_cases hd : s.depth.val = 16
  · simp [pushReturn, hd] at h
  · simp only [pushReturn, hd, dif_neg, not_false_eq_true, Except.ok.injEq] at h
    exact ⟨by omega, h.symm⟩

theorem popReturn_error {s : State} (h : s.depth.val = 0) : popReturn s = .error .stackUnderflow := by
  simp [popReturn, h]

/-- A pop that succeeds: an address was held, it is the new `pc`, every slot is as before. -/
theorem popReturn_cases {s t : State} (h : popReturn s = .ok t) :
    ∃ hd : 0 < s.depth.val, t = { s with
      pc := s.stack[s.depth.val - 1]'(by have := s.depth.isLt; omega), depth := ⟨s.depth.val - 1, by have := s.depth.isLt; omega⟩ } := by
  by_cases hd : s.depth.val = 0
  · simp [popReturn, hd] at h
  · simp only [popReturn, hd, dif_neg, not_false_eq_true, Except.ok.injEq] at h
    exact ⟨by omega, h.symm⟩

/-! ### Commit -/

@[simp] theorem commit_ok (s t : State) : commit s (.ok t) = .next t := rfl

@[simp] theorem commit_error (s : State) (f : Fault) : commit s (.error f) = .next (takeFault f s) := rfl

@[simp] theorem map_ok {α β : Type} (g : α → β) (a : α) : (Except.ok a : Except Fault α).map g = .ok (g a) := rfl

@[simp] theorem map_error {α β : Type} (g : α → β) (f : Fault) : (Except.error f : Except Fault α).map g = .error f := rfl

/-- Everything a committing instruction can do: all of its effects, or the fault entry. -/
theorem commit_cases {s t : State} {r : Except Fault State} (h : commit s r = .next t) :
    r = .ok t ∨ ∃ f, r = .error f ∧ t = takeFault f s := by
  cases r with
  | ok u => exact .inl (by simpa using h)
  | error f => exact .inr ⟨f, rfl, by simpa using h.symm⟩

end Sys2Proof.Machine
end

