-- ==== Sys2Proof/Laws/Display.lean ====
section
/-! SUPPORT. What a pixel flip and one plotted sprite bit do. -/

namespace Sys2Proof.Machine

/-- A flip inverts its own pixel and no other. -/
theorem pixelAt_flipPixel (d : Display) (cx cx' : Fin 64) (cy cy' : Fin 32) :
    pixelAt (flipPixel d cx cy) cx' cy' = (pixelAt d cx' cy' ^^ (decide (cx' = cx) && decide (cy' = cy))) := by
  by_cases hx : cx' = cx
  · subst hx
    by_cases hy : cy' = cy
    · subst hy
      simp [pixelAt, flipPixel]
    · have : cy.val ≠ cy'.val := fun e => hy (Fin.ext e.symm)
      simp [pixelAt, flipPixel, hy, this]
  · have : cx.val ≠ cx'.val := fun e => hx (Fin.ext e.symm)
    simp [pixelAt, flipPixel, hx, this]

theorem pixelAt_plotBit (bit : Bool) (cx cx' : Fin 64) (cy cy' : Fin 32) (p : Canvas) :
    pixelAt (plotBit bit cx cy p).disp cx' cy' = (pixelAt p.disp cx' cy' ^^ (bit && decide (cx' = cx) && decide (cy' = cy))) := by
  cases bit with
  | false => simp [plotBit]
  | true => simpa [plotBit] using pixelAt_flipPixel p.disp cx cx' cy cy'

theorem collided_plotBit (bit : Bool) (cx : Fin 64) (cy : Fin 32) (p : Canvas) :
    (plotBit bit cx cy p).collided = (p.collided || (bit && pixelAt p.disp cx cy)) := by
  cases bit <;> simp [plotBit]

theorem pixelAt_blankDisplay (cx : Fin 64) (cy : Fin 32) : pixelAt blankDisplay cx cy = false := by
  simp [pixelAt, blankDisplay]

end Sys2Proof.Machine
end

