-- ==== Sys2Proof/Laws/Encoding.lean ====
section
/-! SUPPORT. Words and their fields as numbers: the fields of a formatted word are the fields it was made of, and a word is made of
its fields. -/

namespace Sys2Proof

@[simp] theorem regOfNibble_nibbleOfReg (x : Reg) : regOfNibble (nibbleOfReg x) = x := by
  apply Fin.ext
  simp [regOfNibble, nibbleOfReg]

@[simp] theorem nibbleOfReg_regOfNibble (b : Nibble) : nibbleOfReg (regOfNibble b) = b := by
  simp [regOfNibble, nibbleOfReg]

@[simp] theorem toNat_nibbleOfReg (x : Reg) : (nibbleOfReg x).toNat = x.val := by
  simp [nibbleOfReg]

theorem toNat_append_mul {p q : Nat} (a : BitVec p) (b : BitVec q) : (a ++ b).toNat = a.toNat * 2 ^ q + b.toNat := by
  rw [BitVec.toNat_append, ← Nat.shiftLeft_add_eq_or_of_lt b.isLt, Nat.shiftLeft_eq]

/-! ### Fields of a word as numbers -/

theorem toNat_fieldO (w : Word) : (fieldO w).toNat = w.toNat / 4096 := by
  have := w.isLt
  simp [fieldO, BitVec.extractLsb'_toNat, Nat.shiftRight_eq_div_pow]
  omega

theorem val_fieldX (w : Word) : (fieldX w).val = w.toNat / 256 % 16 := by
  simp [fieldX, regOfNibble, BitVec.extractLsb'_toNat, Nat.shiftRight_eq_div_pow]

theorem val_fieldY (w : Word) : (fieldY w).val = w.toNat / 16 % 16 := by
  simp [fieldY, regOfNibble, BitVec.extractLsb'_toNat, Nat.shiftRight_eq_div_pow]

theorem toNat_fieldN (w : Word) : (fieldN w).toNat = w.toNat % 16 := by
  simp [fieldN, BitVec.extractLsb'_toNat]

theorem toNat_fieldKK (w : Word) : (fieldKK w).toNat = w.toNat % 256 := by
  simp [fieldKK, BitVec.extractLsb'_toNat]

theorem toNat_fieldNNN (w : Word) : (fieldNNN w).toNat = w.toNat % 4096 := by
  simp [fieldNNN, BitVec.extractLsb'_toNat]

/-! ### Formatted words as numbers -/

theorem toNat_formatNNN (o : Nibble) (nnn : Addr12) : (formatNNN o nnn).toNat = o.toNat * 4096 + nnn.toNat :=
  toNat_append_mul o nnn

theorem toNat_formatXKK (o : Nibble) (x : Reg) (kk : Byte) :
    (formatXKK o x kk).toNat = o.toNat * 4096 + x.val * 256 + kk.toNat := by
  have h : (formatXKK o x kk).toNat = (o ++ nibbleOfReg x).toNat * 2 ^ 8 + kk.toNat := toNat_append_mul _ _
  rw [h, toNat_append_mul, toNat_nibbleOfReg]
  omega

theorem toNat_formatXYN (o : Nibble) (x y : Reg) (n : Nibble) :
    (formatXYN o x y n).toNat = o.toNat * 4096 + x.val * 256 + y.val * 16 + n.toNat := by
  have h : (formatXYN o x y n).toNat = (o ++ nibbleOfReg x ++ nibbleOfReg y).toNat * 2 ^ 4 + n.toNat := toNat_append_mul _ _
  rw [h, toNat_append_mul, toNat_append_mul, toNat_nibbleOfReg, toNat_nibbleOfReg]
  omega

/-! ### The fields of a formatted word -/

section
variable (o n : Nibble) (x y : Reg) (kk : Byte) (nnn : Addr12)

@[simp] theorem fieldO_formatNNN : fieldO (formatNNN o nnn) = o := by
  apply BitVec.eq_of_toNat_eq
  rw [toNat_fieldO, toNat_formatNNN]
  omega

@[simp] theorem fieldNNN_formatNNN : fieldNNN (formatNNN o nnn) = nnn := by
  apply BitVec.eq_of_toNat_eq
  rw [toNat_fieldNNN, toNat_formatNNN]
  omega

@[simp] theorem fieldO_formatXKK : fieldO (formatXKK o x kk) = o := by
  apply BitVec.eq_of_toNat_eq
  rw [toNat_fieldO, toNat_formatXKK]
  omega

@[simp] theorem fieldX_formatXKK : fieldX (formatXKK o x kk) = x := by
  apply Fin.ext
  rw [val_fieldX, toNat_formatXKK]
  omega

@[simp] theorem fieldKK_formatXKK : fieldKK (formatXKK o x kk) = kk := by
  apply BitVec.eq_of_toNat_eq
  rw [toNat_fieldKK, toNat_formatXKK]
  omega

@[simp] theorem fieldO_formatXYN : fieldO (formatXYN o x y n) = o := by
  apply BitVec.eq_of_toNat_eq
  rw [toNat_fieldO, toNat_formatXYN]
  omega

@[simp] theorem fieldX_formatXYN : fieldX (formatXYN o x y n) = x := by
  apply Fin.ext
  rw [val_fieldX, toNat_formatXYN]
  omega

@[simp] theorem fieldY_formatXYN : fieldY (formatXYN o x y n) = y := by
  apply Fin.ext
  rw [val_fieldY, toNat_formatXYN]
  omega

@[simp] theorem fieldN_formatXYN : fieldN (formatXYN o x y n) = n := by
  apply BitVec.eq_of_toNat_eq
  rw [toNat_fieldN, toNat_formatXYN]
  omega

end

/-! ### A word is made of its fields -/

theorem formatNNN_fields (w : Word) : formatNNN (fieldO w) (fieldNNN w) = w := by
  apply BitVec.eq_of_toNat_eq
  rw [toNat_formatNNN, toNat_fieldO, toNat_fieldNNN]
  omega

theorem formatXKK_fields (w : Word) : formatXKK (fieldO w) (fieldX w) (fieldKK w) = w := by
  apply BitVec.eq_of_toNat_eq
  rw [toNat_formatXKK, toNat_fieldO, val_fieldX, toNat_fieldKK]
  omega

theorem formatXYN_fields (w : Word) : formatXYN (fieldO w) (fieldX w) (fieldY w) (fieldN w) = w := by
  apply BitVec.eq_of_toNat_eq
  rw [toNat_formatXYN, toNat_fieldO, val_fieldX, val_fieldY, toNat_fieldN]
  omega

/-! ### The masks of the opcode map keep the selector fields -/

/-- Two words are equal when their fields are. -/
theorem word_ext {w u : Word} (hO : fieldO w = fieldO u) (hX : fieldX w = fieldX u) (hY : fieldY w = fieldY u) (hN : fieldN w = fieldN u) :
    w = u := by
  rw [← formatXYN_fields w, ← formatXYN_fields u, hO, hX, hY, hN]

theorem fieldO_and (w m : Word) : fieldO (w &&& m) = fieldO w &&& fieldO m := by
  simp [fieldO, BitVec.extractLsb'_and]

theorem fieldX_and (w m : Word) : nibbleOfReg (fieldX (w &&& m)) = nibbleOfReg (fieldX w) &&& nibbleOfReg (fieldX m) := by
  simp [fieldX, BitVec.extractLsb'_and]

theorem fieldY_and (w m : Word) : nibbleOfReg (fieldY (w &&& m)) = nibbleOfReg (fieldY w) &&& nibbleOfReg (fieldY m) := by
  simp [fieldY, BitVec.extractLsb'_and]

theorem fieldN_and (w m : Word) : fieldN (w &&& m) = fieldN w &&& fieldN m := by
  simp [fieldN, BitVec.extractLsb'_and]

theorem fieldKK_and (w m : Word) : fieldKK (w &&& m) = fieldKK w &&& fieldKK m := by
  simp [fieldKK, BitVec.extractLsb'_and]

theorem nibbleOfReg_inj {x y : Reg} : nibbleOfReg x = nibbleOfReg y ↔ x = y :=
  ⟨fun h => by rw [← regOfNibble_nibbleOfReg x, h, regOfNibble_nibbleOfReg], fun h => h ▸ rfl⟩

theorem fieldX_and_zero {w m : Word} (h : fieldX m = 0) : fieldX (w &&& m) = 0 := by
  rw [← nibbleOfReg_inj, fieldX_and, h]
  simp [nibbleOfReg]

theorem fieldY_and_zero {w m : Word} (h : fieldY m = 0) : fieldY (w &&& m) = 0 := by
  rw [← nibbleOfReg_inj, fieldY_and, h]
  simp [nibbleOfReg]

theorem and_allOnes_nibble (b : Nibble) : b &&& 0xF#4 = b := by
  simpa using BitVec.and_allOnes (x := b)

theorem and_allOnes_byte (b : Byte) : b &&& 0xFF#8 = b := by
  simpa using BitVec.and_allOnes (x := b)

/-- Mask `0xF000` keeps the family selector. -/
theorem and_F000 (w : Word) : w &&& 0xF000 = formatXYN (fieldO w) 0 0 0 := by
  apply word_ext
  · rw [fieldO_and, fieldO_formatXYN]
    exact and_allOnes_nibble _
  · rw [fieldX_and_zero (by decide), fieldX_formatXYN]
  · rw [fieldY_and_zero (by decide), fieldY_formatXYN]
  · rw [fieldN_and, fieldN_formatXYN]
    exact BitVec.and_zero

/-- Mask `0xF00F` keeps the family selector and the low nibble. -/
theorem and_F00F (w : Word) : w &&& 0xF00F = formatXYN (fieldO w) 0 0 (fieldN w) := by
  apply word_ext
  · rw [fieldO_and, fieldO_formatXYN]
    exact and_allOnes_nibble _
  · rw [fieldX_and_zero (by decide), fieldX_formatXYN]
  · rw [fieldY_and_zero (by decide), fieldY_formatXYN]
  · rw [fieldN_and, fieldN_formatXYN]
    exact and_allOnes_nibble _

/-- Mask `0xF0FF` keeps the family selector and the low byte. -/
theorem and_F0FF (w : Word) : w &&& 0xF0FF = formatXKK (fieldO w) 0 (fieldKK w) := by
  rw [← formatXKK_fields (w &&& 0xF0FF), fieldO_and, fieldX_and_zero (by decide), fieldKK_and]
  rw [show fieldO 0xF0FF = 0xF#4 by decide, show fieldKK 0xF0FF = 0xFF#8 by decide, and_allOnes_nibble, and_allOnes_byte]

/-! ### Bytes -/

/-- Splitting a word into its bytes and joining them again, high byte first, gives the word. -/
@[simp] theorem wordOfBytes_split (w : Word) : wordOfBytes (highByte w) (lowByte w) = w := by
  apply BitVec.eq_of_toNat_eq
  have := w.isLt
  have h : (wordOfBytes (highByte w) (lowByte w)).toNat = (highByte w).toNat * 2 ^ 8 + (lowByte w).toNat := toNat_append_mul _ _
  rw [h]
  simp [highByte, lowByte, BitVec.extractLsb'_toNat, Nat.shiftRight_eq_div_pow]
  omega

end Sys2Proof
end

