-- ==== Sys2Proof/Laws/PerInstr.lean ====
section
/-! SUPPORT. The family EncodesInRow: the word the format table R92 makes of an instruction is selected by the instruction's own row of
the opcode map R95, and that row is in the map. -/

namespace Sys2Proof.Laws.EncodesInRow

/-- The encoder and the opcode map agree on the instruction (30_encoding.md R92, R95). -/
def Statement (i : Instr) : Prop := i.row.selects (encode i) = true ∧ i.row ∈ opmap

theorem selects_F000 {r : OpRow} {w : Word} (hm : r.mask = 0xF000) (hp : r.pattern = formatXYN (fieldO w) 0 0 0) : r.selects w = true := by
  rw [OpRow.selects, hm, hp, and_F000]
  exact beq_self_eq_true _

theorem selects_F00F {r : OpRow} {w : Word} (hm : r.mask = 0xF00F) (hp : r.pattern = formatXYN (fieldO w) 0 0 (fieldN w)) :
    r.selects w = true := by
  rw [OpRow.selects, hm, hp, and_F00F]
  exact beq_self_eq_true _

theorem selects_F0FF {r : OpRow} {w : Word} (hm : r.mask = 0xF0FF) (hp : r.pattern = formatXKK (fieldO w) 0 (fieldKK w)) :
    r.selects w = true := by
  rw [OpRow.selects, hm, hp, and_F0FF]
  exact beq_self_eq_true _

theorem cls : Statement .cls :=
  ⟨by decide, by decide⟩

theorem ret : Statement .ret :=
  ⟨by decide, by decide⟩

theorem jp (nnn : Addr12) : Statement (.jp nnn) :=
  ⟨selects_F000 rfl (by simp [encode, Instr.row]; decide), by simp [opmap, rowSamples, Instr.row]⟩

theorem call (nnn : Addr12) : Statement (.call nnn) :=
  ⟨selects_F000 rfl (by simp [encode, Instr.row]; decide), by simp [opmap, rowSamples, Instr.row]⟩

theorem seImm (x : Reg) (kk : Byte) : Statement (.seImm x kk) :=
  ⟨selects_F000 rfl (by simp [encode, Instr.row]; decide), by simp [opmap, rowSamples, Instr.row]⟩

theorem sneImm (x : Reg) (kk : Byte) : Statement (.sneImm x kk) :=
  ⟨selects_F000 rfl (by simp [encode, Instr.row]; decide), by simp [opmap, rowSamples, Instr.row]⟩

theorem seReg (x y : Reg) : Statement (.seReg x y) :=
  ⟨selects_F00F rfl (by simp [encode, Instr.row]; decide), by simp [opmap, rowSamples, Instr.row]⟩

theorem ldImm (x : Reg) (kk : Byte) : Statement (.ldImm x kk) :=
  ⟨selects_F000 rfl (by simp [encode, Instr.row]; decide), by simp [opmap, rowSamples, Instr.row]⟩

theorem addImm (x : Reg) (kk : Byte) : Statement (.addImm x kk) :=
  ⟨selects_F000 rfl (by simp [encode, Instr.row]; decide), by simp [opmap, rowSamples, Instr.row]⟩

theorem ldReg (x y : Reg) : Statement (.ldReg x y) :=
  ⟨selects_F00F rfl (by simp [encode, Instr.row]; decide), by simp [opmap, rowSamples, Instr.row]⟩

theorem orReg (x y : Reg) : Statement (.orReg x y) :=
  ⟨selects_F00F rfl (by simp [encode, Instr.row]; decide), by simp [opmap, rowSamples, Instr.row]⟩

theorem andReg (x y : Reg) : Statement (.andReg x y) :=
  ⟨selects_F00F rfl (by simp [encode, Instr.row]; decide), by simp [opmap, rowSamples, Instr.row]⟩

theorem xorReg (x y : Reg) : Statement (.xorReg x y) :=
  ⟨selects_F00F rfl (by simp [encode, Instr.row]; decide), by simp [opmap, rowSamples, Instr.row]⟩

theorem addReg (x y : Reg) : Statement (.addReg x y) :=
  ⟨selects_F00F rfl (by simp [encode, Instr.row]; decide), by simp [opmap, rowSamples, Instr.row]⟩

theorem sub (x y : Reg) : Statement (.sub x y) :=
  ⟨selects_F00F rfl (by simp [encode, Instr.row]; decide), by simp [opmap, rowSamples, Instr.row]⟩

theorem shr (x y : Reg) : Statement (.shr x y) :=
  ⟨selects_F00F rfl (by simp [encode, Instr.row]; decide), by simp [opmap, rowSamples, Instr.row]⟩

theorem subn (x y : Reg) : Statement (.subn x y) :=
  ⟨selects_F00F rfl (by simp [encode, Instr.row]; decide), by simp [opmap, rowSamples, Instr.row]⟩

theorem shl (x y : Reg) : Statement (.shl x y) :=
  ⟨selects_F00F rfl (by simp [encode, Instr.row]; decide), by simp [opmap, rowSamples, Instr.row]⟩

theorem sneReg (x y : Reg) : Statement (.sneReg x y) :=
  ⟨selects_F00F rfl (by simp [encode, Instr.row]; decide), by simp [opmap, rowSamples, Instr.row]⟩

theorem ldI (nnn : Addr12) : Statement (.ldI nnn) :=
  ⟨selects_F000 rfl (by simp [encode, Instr.row]; decide), by simp [opmap, rowSamples, Instr.row]⟩

theorem jpV0 (nnn : Addr12) : Statement (.jpV0 nnn) :=
  ⟨selects_F000 rfl (by simp [encode, Instr.row]; decide), by simp [opmap, rowSamples, Instr.row]⟩

theorem rnd (x : Reg) (kk : Byte) : Statement (.rnd x kk) :=
  ⟨selects_F000 rfl (by simp [encode, Instr.row]; decide), by simp [opmap, rowSamples, Instr.row]⟩

theorem drw (x y : Reg) (n : Nibble) : Statement (.drw x y n) :=
  ⟨selects_F000 rfl (by simp [encode, Instr.row]; decide), by simp [opmap, rowSamples, Instr.row]⟩

theorem skp (x : Reg) : Statement (.skp x) :=
  ⟨selects_F0FF rfl (by simp [encode, Instr.row]; decide), by simp [opmap, rowSamples, Instr.row]⟩

theorem sknp (x : Reg) : Statement (.sknp x) :=
  ⟨selects_F0FF rfl (by simp [encode, Instr.row]; decide), by simp [opmap, rowSamples, Instr.row]⟩

theorem ldVxDT (x : Reg) : Statement (.ldVxDT x) :=
  ⟨selects_F0FF rfl (by simp [encode, Instr.row]; decide), by simp [opmap, rowSamples, Instr.row]⟩

theorem ldVxK (x : Reg) : Statement (.ldVxK x) :=
  ⟨selects_F0FF rfl (by simp [encode, Instr.row]; decide), by simp [opmap, rowSamples, Instr.row]⟩

theorem ldDTVx (x : Reg) : Statement (.ldDTVx x) :=
  ⟨selects_F0FF rfl (by simp [encode, Instr.row]; decide), by simp [opmap, rowSamples, Instr.row]⟩

theorem ldSTVx (x : Reg) : Statement (.ldSTVx x) :=
  ⟨selects_F0FF rfl (by simp [encode, Instr.row]; decide), by simp [opmap, rowSamples, Instr.row]⟩

theorem addI (x : Reg) : Statement (.addI x) :=
  ⟨selects_F0FF rfl (by simp [encode, Instr.row]; decide), by simp [opmap, rowSamples, Instr.row]⟩

theorem ldF (x : Reg) : Statement (.ldF x) :=
  ⟨selects_F0FF rfl (by simp [encode, Instr.row]; decide), by simp [opmap, rowSamples, Instr.row]⟩

theorem ldB (x : Reg) : Statement (.ldB x) :=
  ⟨selects_F0FF rfl (by simp [encode, Instr.row]; decide), by simp [opmap, rowSamples, Instr.row]⟩

theorem ldMemVx (x : Reg) : Statement (.ldMemVx x) :=
  ⟨selects_F0FF rfl (by simp [encode, Instr.row]; decide), by simp [opmap, rowSamples, Instr.row]⟩

theorem ldVxMem (x : Reg) : Statement (.ldVxMem x) :=
  ⟨selects_F0FF rfl (by simp [encode, Instr.row]; decide), by simp [opmap, rowSamples, Instr.row]⟩

end Sys2Proof.Laws.EncodesInRow
end

