-- ==== Sys2Proof/Laws/Step.lean ====
section
/-! SUPPORT. What a step can do, said once: the gate, the cycle, and the instructions that commit when they do not fault. -/

namespace Sys2Proof.Machine

/-! ### Instructions that can fault, when they do not -/

theorem exec_call_ok {nnn : Addr12} {s : State} (h : s.depth.val < 16) :
    exec (.call nnn) s = .next { s with
      stack := s.stack.set s.depth.val (s.pc + 2), depth := ⟨s.depth.val + 1, by omega⟩, pc := zextAddr nnn } := by
  simp only [exec, execCall, pushReturn]
  rw [dif_neg (by omega)]
  rfl

theorem exec_ret_ok {s : State} (h : 0 < s.depth.val) :
    exec .ret s = .next { s with
      pc := s.stack[s.depth.val - 1]'(by have := s.depth.isLt; omega), depth := ⟨s.depth.val - 1, by have := s.depth.isLt; omega⟩ } := by
  simp only [exec, execRet, popReturn]
  rw [dif_neg (by omega)]
  rfl

theorem exec_drw_ok {x y : Reg} {n : Nibble} {s : State} (h : n.toNat = 0 ∨ s.i.toNat + n.toNat ≤ 0x1000) :
    exec (.drw x y n) s = .next (advance (drawSprite (readV x s) (readV y s) (bytesFrom s.mem s.i.toNat n.toNat) s)) := by
  simp only [exec, execDrw, base]
  rw [readBytes_ok h]
  rfl

theorem exec_ldB_ok {x : Reg} {s : State} (h : s.i.toNat + 3 ≤ 0x1000) :
    exec (.ldB x) s = .next (advance { s with mem := setBytes s.mem s.i.toNat (bcdDigits (readV x s)) }) := by
  simp only [exec, execLdB, base]
  rw [writeBytes_ok (.inr h)]
  rfl

theorem exec_ldMemVx_ok {x : Reg} {s : State} (h : s.i.toNat + (x.val + 1) ≤ 0x1000) :
    exec (.ldMemVx x) s = .next (advance { s with mem := setBytes s.mem s.i.toNat (regsThrough x s) }) := by
  simp only [exec, execLdMemVx, base]
  rw [writeBytes_ok (.inr (by simpa using h))]
  rfl

theorem exec_ldVxMem_ok {x : Reg} {s : State} (h : s.i.toNat + (x.val + 1) ≤ 0x1000) :
    exec (.ldVxMem x) s = .next (advance (loadRegs (bytesFrom s.mem s.i.toNat (x.val + 1)) s)) := by
  simp only [exec, execLdVxMem, base]
  rw [readBytes_ok (.inr h)]
  rfl

/-! ### The cycle and the gate -/

theorem fetch_ok {s : State} (h : s.pc.toNat + 1 ≤ 0xFFF) :
    fetch s = .ok (byteAt s.mem s.pc.toNat ++ byteAt s.mem (s.pc.toNat + 1)) :=
  readWord_ok (by omega) s

theorem fetch_error {s : State} (h : 0xFFF ≤ s.pc.toNat) : fetch s = .error (.outOfBounds (max s.pc.toNat 0x1000)) :=
  readWord_error (by omega) s

/-- Everything a cycle can do: take the fetch's fault, advance over an Unknown word, or execute the decoded instruction. -/
theorem cycle_cases {s t : State} (h : cycle s = .next t) :
    (∃ f, fetch s = .error f ∧ t = takeFault f s) ∨
    ∃ w, fetch s = .ok w ∧ ((∃ u, decode w = .unknown u ∧ t = advance s) ∨ ∃ i, decode w = .known i ∧ exec i s = .next t) := by
  unfold cycle at h
  cases hf : fetch s with
  | error f => exact .inl ⟨f, rfl, by simpa [hf] using h.symm⟩
  | ok w =>
    simp only [hf, execDecoded] at h
    refine .inr ⟨w, rfl, ?_⟩
    cases hd : decode w with
    | unknown u => exact .inl ⟨u, rfl, by simpa [hd, execUnknown] using h.symm⟩
    | known i => exact .inr ⟨i, rfl, by simpa [hd] using h⟩

/-- The state a runnable machine's cycle starts from (40_step_cycle.md R129). -/
def State.asRunning (s : State) : State := { s with runState := .running }

theorem step_of_canStep {s : State} (h : s.canStep) : step s = cycle s.asRunning := by
  rcases h with h | h
  · have : s.asRunning = s := by
      cases s
      simp_all [State.asRunning]
    rw [this]
    simp [step, stepOnce, h]
  · simp [step, stepOnce, h, State.asRunning]

theorem step_of_not_canStep {s : State} (h : ¬ s.canStep) : step s = .next s := by
  unfold State.canStep at h
  unfold step stepOnce
  split <;> simp_all

/-- The result of a step whose next state is known. -/
theorem stepReport_of_step {s t : State} (h : step s = .next t) : stepReport s = .next (reportOf s t) := by
  simp [stepReport, h]

/-! ### A key press: everything it can do -/

/-- In a wait: the mask bit, the key number into the waiting register, and on it runs. -/
theorem keyDown_of_waiting {k : Key} {s : State} {x : Reg} (h : s.runState = .waitingForKey x) :
    keyDown k s = { s with keypad := s.keypad ||| keyMask k, v := s.v.set x.val (BitVec.ofNat 8 k.val), runState := .running } := by
  unfold keyDown
  simp only [h]
  rfl

/-- Outside a wait: the mask bit and nothing else. -/
theorem keyDown_of_not_waiting {k : Key} {s : State} (h : ∀ x, s.runState ≠ .waitingForKey x) :
    keyDown k s = { s with keypad := s.keypad ||| keyMask k } := by
  unfold keyDown
  split <;> simp_all

end Sys2Proof.Machine
end

