-- ==== Sys2Proof/Tests/Slice0.lean ====
section
/-! SUPPORT. Tests. Expected values are those of spec/95_test_vectors.md (its section in each heading), never the model's own answers;
words are the spec's encodings (spec/opcode_table.json "encoding"). At the end, for every statement with hypotheses, a theorem that a
concrete state meets them. -/

open Sys2Proof Sys2Proof.Machine

namespace Sys2Proof.Tests

/-! ### Well-formedness: every check refuses an ill-formed term (70_reset_and_hazards.md R295, 30_encoding.md R109) -/

theorem test_wellFormed_accepts : Instr.wellFormed (.jp 0x200) = true ∧ Instr.wellFormed (.call 0xFFE) = true := by decide
theorem test_wellFormed_refuses_odd_jump : Instr.wellFormed (.jp 0x301) = false := by decide
theorem test_wellFormed_refuses_low_jump : Instr.wellFormed (.jp 0x1FE) = false := by decide
theorem test_wellFormed_refuses_unfetchable_jump : Instr.wellFormed (.jp 0xFFF) = false ∧ targetFetchable 0xFFF = false := by decide
theorem test_wellFormed_refuses_odd_call : Instr.wellFormed (.call 0x301) = false := by decide
theorem test_wellFormed_refuses_low_call : Instr.wellFormed (.call 0x1FE) = false := by decide
theorem test_image_of_3584_bytes : imageWellFormed (List.replicate 3584 0) = true := by
  rw [imageWellFormed, List.length_replicate]
  decide
theorem test_image_of_3585_bytes_refused : imageWellFormed (List.replicate 3585 0) = false := by
  rw [imageWellFormed, List.length_replicate]
  decide

/-! ### Decoding: one written word for every instruction (part 2.1), and words that are Unknown -/

theorem test_decode_control :
    decode 0b0000000011101110 = .known .ret ∧ decode 0b0001101010111100 = .known (.jp 0xABC) ∧
    decode 0b0010101010111100 = .known (.call 0xABC) ∧ decode 0b0011101001000010 = .known (.seImm 10 0x42) ∧
    decode 0b0100101001000010 = .known (.sneImm 10 0x42) ∧ decode 0b0101101010110000 = .known (.seReg 10 11) ∧
    decode 0b1001101010110000 = .known (.sneReg 10 11) ∧ decode 0b1011101010111100 = .known (.jpV0 0xABC) := by decide

theorem test_decode_alu :
    decode 0b0110101001000010 = .known (.ldImm 10 0x42) ∧ decode 0b0111101001000010 = .known (.addImm 10 0x42) ∧
    decode 0b1000101010110000 = .known (.ldReg 10 11) ∧ decode 0b1000101010110001 = .known (.orReg 10 11) ∧
    decode 0b1000101010110010 = .known (.andReg 10 11) ∧ decode 0b1000101010110011 = .known (.xorReg 10 11) ∧
    decode 0b1000101010110100 = .known (.addReg 10 11) ∧ decode 0b1000101010110101 = .known (.sub 10 11) ∧
    decode 0b1000101010110110 = .known (.shr 10 11) ∧ decode 0b1000101010110111 = .known (.subn 10 11) ∧
    decode 0b1000101010111110 = .known (.shl 10 11) ∧ decode 0b1100101000001111 = .known (.rnd 10 0x0F) := by decide

theorem test_decode_index_memory :
    decode 0b1010101010111100 = .known (.ldI 0xABC) ∧ decode 0b1111101000011110 = .known (.addI 10) ∧
    decode 0b1111101000101001 = .known (.ldF 10) ∧ decode 0b1111101000110011 = .known (.ldB 10) ∧
    decode 0b1111101001010101 = .known (.ldMemVx 10) ∧ decode 0b1111101001100101 = .known (.ldVxMem 10) := by decide

theorem test_decode_display_keypad_timers :
    decode 0b0000000011100000 = .known .cls ∧ decode 0b1101101010110101 = .known (.drw 10 11 5) ∧
    decode 0b1110101010011110 = .known (.skp 10) ∧ decode 0b1110101010100001 = .known (.sknp 10) ∧
    decode 0b1111101000000111 = .known (.ldVxDT 10) ∧ decode 0b1111101000001010 = .known (.ldVxK 10) ∧
    decode 0b1111101000010101 = .known (.ldDTVx 10) ∧ decode 0b1111101000011000 = .known (.ldSTVx 10) := by decide

theorem test_decode_unknown :
    decode 0x0000 = .unknown 0x0000 ∧ decode 0x00E1 = .unknown 0x00E1 ∧ decode 0x0123 = .unknown 0x0123 ∧
    decode 0x5AB1 = .unknown 0x5AB1 ∧ decode 0x8AB8 = .unknown 0x8AB8 ∧ decode 0x8ABF = .unknown 0x8ABF ∧
    decode 0x9AB1 = .unknown 0x9AB1 ∧ decode 0xEA9F = .unknown 0xEA9F ∧ decode 0xFA1F = .unknown 0xFA1F ∧
    decode 0xFA75 = .unknown 0xFA75 ∧ decode 0xFFFF = .unknown 0xFFFF := by decide

theorem test_decodeTableWord : decodeTableWord 16 0x8AB4 = some (.addReg 10 11) ∧ decodeTableWord 16 0x0000 = none := by decide

theorem test_decodeBytes_truncated : decodeBytes [0x12] = .truncated ∧ decodeBytes [0x12, 0x34, 0x56] = .word (.known (.jp 0x234)) [0x56] := by
  decide

/-! ### Helpers: a running machine, one step on one word -/

/-- The reset machine, running. -/
def machine : State := { State.reset with runState := .running }

/-- The machine with these registers written. -/
def withRegs (rs : List (Reg × Byte)) (s : State) : State := rs.foldl (fun t p => writeV p.1 p.2 t) s

/-- The machine with these bytes stored. -/
def withBytes (a : Nat) (bs : List Byte) (s : State) : State := { s with mem := setBytes s.mem a bs }

/-- The answer is a next state of which `p` holds. -/
def gives (p : State → Bool) : Result → Bool
  | .next t => p t
  | .fault _ => false
  | .refused _ => false

theorem exists_of_gives {p : State → Bool} {r : Result} (h : gives p r = true) : ∃ t, r = .next t ∧ p t = true := by
  cases r with
  | next t => exact ⟨t, rfl, h⟩
  | fault f => cases h
  | refused f => cases h

/-- The answer is a next state. -/
theorem next_of_gives {r : Result} (h : gives (fun _ => true) r = true) : ∃ t, r = .next t :=
  (exists_of_gives h).imp fun _ ht => ht.1

/-- One step on the word `w` at `pc` answers a next state of which `p` holds. -/
def stepGives (w : Nat) (s : State) (p : State → Bool) : Bool := gives p (step (s.withFetchWord 16 w))

/-- Halted on this fault at this address. -/
def haltedOn (f : Fault) (pc : Word) (t : State) : Bool := decide (t.runState = .halted ⟨f, pc⟩) && decide (t.pc = pc)

/-- The pixel is set. -/
def lit (cx : Fin 64) (cy : Fin 32) (t : State) : Bool := pixelAt t.disp cx cy

/-! ### 2.2 Control transfer -/

theorem test_jp : stepGives 0x1FFE machine (fun t => t.pc == 0x0FFE) = true := by decide

theorem test_call : stepGives 0x2300 { machine with pc := 0x0ABC, depth := 15 }
    (fun t => t.pc == 0x0300 && t.depth == 16 && t.stack[15] == 0x0ABE) = true := by decide

theorem test_call_overflow : stepGives 0x2300 { machine with pc := 0x0ABC, depth := 16 }
    (fun t => haltedOn .stackOverflow 0x0ABC t && t.depth == 16) = true := by decide

theorem test_ret : stepGives 0x00EE { machine with pc := 0x0300, depth := 2, stack := (machine.stack.set 0 0x0202).set 1 0x0404 }
    (fun t => t.pc == 0x0404 && t.depth == 1) = true := by decide

theorem test_ret_underflow : stepGives 0x00EE machine (fun t => haltedOn .stackUnderflow 0x0200 t && t.depth == 0) = true := by decide

theorem test_se_imm : stepGives 0x332A (withRegs [(3, 0x2A)] machine) (fun t => t.pc == 0x0204) = true ∧
    stepGives 0x332A (withRegs [(3, 0x2B)] machine) (fun t => t.pc == 0x0202) = true := by decide

theorem test_sne_imm : stepGives 0x432A (withRegs [(3, 0x2A)] machine) (fun t => t.pc == 0x0202) = true ∧
    stepGives 0x432A (withRegs [(3, 0x2B)] machine) (fun t => t.pc == 0x0204) = true := by decide

theorem test_se_reg : stepGives 0x5120 (withRegs [(1, 7), (2, 7)] machine) (fun t => t.pc == 0x0204) = true ∧
    stepGives 0x5120 (withRegs [(1, 7), (2, 8)] machine) (fun t => t.pc == 0x0202) = true := by decide

theorem test_sne_reg : stepGives 0x9120 (withRegs [(1, 7), (2, 8)] machine) (fun t => t.pc == 0x0204) = true ∧
    stepGives 0x9120 (withRegs [(1, 7), (2, 7)] machine) (fun t => t.pc == 0x0202) = true := by decide

theorem test_jp_v0 : stepGives 0xB300 (withRegs [(0, 1), (3, 0x50)] machine) (fun t => t.pc == 0x0301) = true ∧
    stepGives 0xBFFF (withRegs [(0, 0xFF)] machine) (fun t => t.pc == 0x10FE) = true := by decide

theorem test_unknown_is_a_reported_no_op : stepGives 0x5121 machine (fun t => t.pc == 0x0202 && decide (t.runState = .running)) = true := by
  decide

/-! ### 2.3 Register and arithmetic -/

theorem test_ld_imm : stepGives 0x6A2F machine (fun t => readV 10 t == 0x2F) = true := by decide

theorem test_add_imm_sets_no_flag :
    stepGives 0x7105 (withRegs [(1, 0xFE)] machine) (fun t => readV 1 t == 0x03 && readV 15 t == 0) = true := by decide

theorem test_ld_reg : stepGives 0x8120 (withRegs [(2, 0x55)] machine) (fun t => readV 1 t == 0x55) = true := by decide

theorem test_or_keeps_flag : stepGives 0x8121 (withRegs [(1, 0xF0), (2, 0x0F), (15, 1)] machine)
    (fun t => readV 1 t == 0xFF && readV 15 t == 1) = true := by decide

theorem test_and : stepGives 0x8122 (withRegs [(1, 0xF3), (2, 0x3F)] machine) (fun t => readV 1 t == 0x33) = true := by decide

theorem test_xor : stepGives 0x8123 (withRegs [(1, 0xFF), (2, 0x0F)] machine) (fun t => readV 1 t == 0xF0) = true := by decide

theorem test_add_reg : stepGives 0x8124 (withRegs [(1, 250), (2, 10)] machine) (fun t => readV 1 t == 4 && readV 15 t == 1) = true ∧
    stepGives 0x8124 (withRegs [(1, 200), (2, 55)] machine) (fun t => readV 1 t == 255 && readV 15 t == 0) = true := by decide

theorem test_add_flag_last : stepGives 0x8F14 (withRegs [(15, 3), (1, 4)] machine) (fun t => readV 15 t == 0) = true ∧
    stepGives 0x81F4 (withRegs [(1, 100), (15, 200)] machine) (fun t => readV 1 t == 44 && readV 15 t == 1) = true := by decide

theorem test_sub : stepGives 0x8125 (withRegs [(1, 5), (2, 10)] machine) (fun t => readV 1 t == 251 && readV 15 t == 0) = true ∧
    stepGives 0x8125 (withRegs [(1, 7), (2, 7)] machine) (fun t => readV 1 t == 0 && readV 15 t == 1) = true := by decide

theorem test_shr : stepGives 0x8126 (withRegs [(1, 4), (2, 0xFF)] machine) (fun t => readV 1 t == 2 && readV 15 t == 0) = true ∧
    stepGives 0x8106 (withRegs [(1, 3)] machine) (fun t => readV 1 t == 1 && readV 15 t == 1) = true := by decide

theorem test_subn : stepGives 0x8127 (withRegs [(1, 10), (2, 5)] machine) (fun t => readV 1 t == 251 && readV 15 t == 0) = true ∧
    stepGives 0x8127 (withRegs [(1, 7), (2, 7)] machine) (fun t => readV 1 t == 0 && readV 15 t == 1) = true := by decide

theorem test_shl : stepGives 0x812E (withRegs [(1, 1), (2, 0x80)] machine) (fun t => readV 1 t == 2 && readV 15 t == 0) = true ∧
    stepGives 0x810E (withRegs [(1, 129)] machine) (fun t => readV 1 t == 2 && readV 15 t == 1) = true := by decide

theorem test_rnd_mask : readV 3 (drawRandom 0xA7 3 0x0F machine) = 0x07 ∧ readV 3 (drawRandom 0xFF 3 0xF0 machine) = 0xF0 := by decide

theorem test_rnd_draws_the_free_byte : exec (.rnd 3 0x0F) machine = .next (drawRandom (Config.randByte 0) 3 0x0F machine) := rfl

/-! ### 2.4 Index and memory -/

theorem test_ld_i : stepGives 0xAFFF machine (fun t => t.i == 0x0FFF) = true := by decide

theorem test_add_i : stepGives 0xF21E (withRegs [(2, 1)] { machine with i := 0x0FFF }) (fun t => t.i == 0x1000 && readV 15 t == 0) = true ∧
    stepGives 0xF21E (withRegs [(2, 0xFF)] { machine with i := 0xFF80 }) (fun t => t.i == 0x007F) = true := by decide

theorem test_ld_f : stepGives 0xF429 (withRegs [(4, 0x0A)] machine) (fun t => t.i == 0x0032) = true ∧
    stepGives 0xF429 (withRegs [(4, 0xFF)] machine) (fun t => t.i == 0x04FB) = true := by decide

theorem test_ld_b : stepGives 0xF033 (withRegs [(0, 123)] { machine with i := 0x0FFD })
    (fun t => bytesFrom t.mem 0xFFD 3 == [1, 2, 3] && t.i == 0x0FFD) = true := by decide

theorem test_ld_b_out_of_bounds : stepGives 0xF033 (withRegs [(0, 123)] { machine with i := 0x0FFE })
    (fun t => haltedOn (.outOfBounds 0x1000) 0x0200 t && bytesFrom t.mem 0xFFE 2 == [0, 0]) = true ∧
    stepGives 0xF033 { machine with i := 0x1234 } (haltedOn (.outOfBounds 0x1234) 0x0200) = true := by decide

theorem test_dump : stepGives 0xF255 (withRegs [(0, 0x11), (1, 0x22), (2, 0x33), (3, 0x44)] { machine with i := 0x0400 })
    (fun t => bytesFrom t.mem 0x400 4 == [0x11, 0x22, 0x33, 0] && t.i == 0x0400) = true := by decide

theorem test_dump_over_the_font : stepGives 0xF055 (withRegs [(0, 0xAA)] machine)
    (fun t => bytesFrom t.mem 0 2 == [0xAA, 0x90] && decide (t.runState = .running)) = true := by decide

theorem test_load : stepGives 0xF265 (withRegs [(3, 0x77)] (withBytes 0x300 [2, 5, 4] { machine with i := 0x0300 }))
    (fun t => readV 0 t == 2 && readV 1 t == 5 && readV 2 t == 4 && readV 3 t == 0x77 && t.i == 0x0300) = true := by decide

theorem test_load_out_of_bounds : stepGives 0xF165 { machine with i := 0x0FFF } (haltedOn (.outOfBounds 0x1000) 0x0200) = true ∧
    stepGives 0xF465 machine (fun t => readV 0 t == 0xF0 && readV 1 t == 0x90 && readV 4 t == 0xF0) = true := by decide

/-! ### 2.5 Display -/

theorem test_cls : stepGives 0x00E0 (withRegs [(15, 1)] { machine with disp := flipPixel blankDisplay 5 6 })
    (fun t => !(lit 5 6 t) && readV 15 t == 1) = true := by decide

theorem test_drw_wraps_to_the_left : stepGives 0xD011 (withRegs [(0, 60)] (withBytes 0x300 [0x88] { machine with i := 0x0300 }))
    (fun t => lit 60 0 t && lit 0 0 t && !(lit 61 0 t) && readV 15 t == 0) = true := by decide

theorem test_drw_collides : stepGives 0xD011 (withBytes 0x300 [0xC0] { machine with i := 0x0300, disp := flipPixel blankDisplay 0 0 })
    (fun t => !(lit 0 0 t) && lit 1 0 t && readV 15 t == 1) = true := by decide

theorem test_drw_wraps_to_the_top : stepGives 0xD012 (withRegs [(1, 31)] (withBytes 0x300 [0x80, 0x80] { machine with i := 0x0300 }))
    (fun t => lit 0 31 t && lit 0 0 t && readV 15 t == 0) = true := by decide

theorem test_drw_no_rows_and_out_of_bounds :
    stepGives 0xD010 (withRegs [(15, 1)] { machine with i := 0xFFFF }) (fun t => readV 15 t == 0 && decide (t.runState = .running)) = true ∧
    stepGives 0xD013 { machine with i := 0x0FFE } (haltedOn (.outOfBounds 0x1000) 0x0200) = true := by decide

/-! ### 2.6 Keypad and timers -/

theorem test_skp : stepGives 0xE29E (withRegs [(2, 5)] { machine with keypad := 0x0020 }) (fun t => t.pc == 0x0204) = true ∧
    stepGives 0xE29E (withRegs [(2, 0x15)] { machine with keypad := 0xFFFF }) (fun t => t.pc == 0x0202) = true := by decide

theorem test_sknp : stepGives 0xE2A1 (withRegs [(2, 5)] { machine with keypad := 0x0020 }) (fun t => t.pc == 0x0202) = true ∧
    stepGives 0xE2A1 (withRegs [(2, 0x15)] { machine with keypad := 0xFFFF }) (fun t => t.pc == 0x0204) = true := by decide

theorem test_ld_vx_dt : stepGives 0xF307 { machine with dt := 0x2C } (fun t => readV 3 t == 0x2C && t.dt == 0x2C) = true := by decide

theorem test_ld_dt_vx : stepGives 0xF315 (withRegs [(3, 60)] machine) (fun t => t.dt == 60 && t.st == 0) = true := by decide

theorem test_ld_st_vx : stepGives 0xF318 (withRegs [(3, 4)] machine) (fun t => t.st == 4 && t.dt == 0 && soundActive t) = true := by decide

theorem test_ld_vx_k : stepGives 0xF30A { machine with keypad := 0x0080 }
    (fun t => decide (t.runState = .waitingForKey 3) && t.pc == 0x0202 && readV 3 t == 0) = true := by decide

theorem test_key_down_ends_a_wait :
    let t := keyDown 11 { machine with runState := .waitingForKey 3 }
    t.runState = .running ∧ readV 3 t = 0x0B ∧ t.keypad = 0x0800 := by decide

theorem test_key_up_does_not_end_a_wait :
    let t := keyUp 7 { machine with runState := .waitingForKey 3, keypad := 0x0080 }
    t.runState = .waitingForKey 3 ∧ t.keypad = 0 := by decide

theorem test_tick : (tickTimers { machine with dt := 5, st := 0 }).dt = 4 ∧ (tickTimers { machine with dt := 0, st := 1 }).dt = 0 ∧
    (tickTimers { machine with dt := 0, st := 1 }).st = 0 := by decide

/-! ### 2.7 Run states, load, reset -/

theorem test_load_program :
    let r := loadProgram [0x12, 0x00] State.reset
    r.1 = .ok ∧ bytesFrom r.2.mem 0x200 3 = [0x12, 0x00, 0x00] ∧ r.2.programLength = 2 ∧ r.2.runState = .loaded := by decide

theorem test_load_program_not_stopped : (loadProgram [0x12, 0x00] machine).1 = .notStopped := by decide

theorem test_first_step_of_a_loaded_program :
    gives (fun t => decide (t.runState = .running) && t.pc == 0x0200) (step (loadProgram [0x12, 0x00] State.reset).2) = true := by decide

theorem test_reset_memory : bytesFrom State.reset.mem 0 5 = [0xF0, 0x90, 0x90, 0x90, 0xF0] ∧ byteAt State.reset.mem 0x50 = 0 := by decide

theorem test_withFetchWord_runs_from_reset : stepGives 0x6A2F State.reset (fun t => readV 10 t == 0x2F && decide (t.runState = .running)) = true := by
  decide

theorem test_unknown_report : stepReport machine = .next (.unknownReport 0x0000 0x0200) := by rfl

theorem test_step_in_stopped_is_idle : stepReport State.reset = .next .idle := by rfl

/-! ### Witnesses: a concrete state meets the hypotheses of every statement that has any, clause by clause at its boundary -/

/-- The machine with the word's two bytes where it fetches next. -/
def machineAt (w : Nat) (s : State) : State := s.withFetchWord 16 w

theorem witness_EncodeOfDecodeIsTheWord : decode 0x8AB4 = .known (.addReg 10 11) := by decide

theorem witness_DecoderAgreesWithTheOpcodeMap : ∃ r ∈ opmap, r.selects 0x8AB4 = true ∧ ∃ q ∈ opmap, q.selects 0x8AB4 = false := by decide

theorem witness_ByteReadAndWriteAreBoundsChecked : (0xFFF ≤ 0xFFF ∧ readBytes 0xFFF 1 machine = .ok [0]) ∧
    0xFFF < 0x1000 ∧ readBytes 0x1000 1 machine = .error (.outOfBounds 0x1000) := ⟨⟨by decide, rfl⟩, by decide, rfl⟩

theorem witness_WordReadIsBigEndian : (0xFFE + 1 ≤ 0xFFF ∧ readWord 0xFFE machine = .ok 0) ∧
    (0xFFF + 1 > 0xFFF ∧ readWord 0xFFF machine = .error (.outOfBounds 0x1000)) ∧
    0x1001 + 1 > 0xFFF ∧ readWord 0x1001 machine = .error (.outOfBounds 0x1001) :=
  ⟨⟨by decide, rfl⟩, ⟨by decide, rfl⟩, by decide, rfl⟩

theorem witness_CanonicalMemoriesReadingAlikeAreEqual :
    let m := setBytes [] 0x200 [1, 0]
    let n := setBytes (setBytes [] 0x201 [7]) 0x200 [1, 0]
    Memory.wf m ∧ Memory.wf n ∧ ∀ a, byteAt m a = byteAt n a := ⟨by decide, by decide, fun _ => rfl⟩

/-- Program P7's store (one byte at `npc`, the other from old memory), a dump over both bytes, and a digit on the second byte only. -/
theorem witness_StoredBytesAreFetchedByTheNextStep :
    let s : State := { machine with i := 0x0202 }
    let u : State := { machine with i := 0x0201 }
    (s.pc + 2).toNat + 1 ≤ 0xFFF ∧ s.i.toNat + (0 : Reg).val ≤ 0xFFF ∧ (s.pc + 2).toNat = s.i.toNat + (0 : Reg).val ∧
    s.i.toNat + (0 : Reg).val < (s.pc + 2).toNat + 1 ∧ s.i.toNat + (1 : Reg).val ≤ 0xFFF ∧
    (u.pc + 2).toNat + 1 ≤ 0xFFF ∧ u.i.toNat + 2 ≤ 0xFFF ∧ (u.pc + 2).toNat + 1 = u.i.toNat + 2 := by decide

theorem test_stored_byte_is_fetched : stepGives 0xF055 (withRegs [(0, 0x61)] (withBytes 0x202 [0x00, 0x2A] { machine with i := 0x0202 }))
    (fun t => match fetch t with
      | .ok w => w == 0x612A
      | .error _ => false) = true := by decide

theorem witness_StepRunsTheDecodedInstruction : ∀ r ∈ [RunState.running, RunState.loaded],
    let s : State := { withBytes 0xFFE [0x8A, 0xB4] machine with pc := 0x0FFE, runState := r }
    s.pc.toNat + 1 ≤ 0xFFF ∧ decode (byteAt s.mem s.pc.toNat ++ byteAt s.mem (s.pc.toNat + 1)) = .known (.addReg 10 11) ∧
      s.runState = r := by decide

theorem witness_UnknownWordOnlyAdvancesAndIsReported :
    let s := machineAt 0x5AB1 machine
    s.runState = .running ∧ s.pc.toNat + 1 ≤ 0xFFF ∧ byteAt s.mem s.pc.toNat ++ byteAt s.mem (s.pc.toNat + 1) = 0x5AB1#16 ∧
      decode 0x5AB1 = .unknown 0x5AB1 := by decide

theorem witness_FetchPastMemoryHalts :
    (({ machine with pc := 0x0FFF } : State).canStep ∧ 0xFFF ≤ (0x0FFF#16).toNat) ∧
    ({ machine with pc := 0x10FE, runState := .loaded } : State).canStep ∧ 0xFFF < (0x10FE#16).toNat :=
  ⟨⟨.inl rfl, by decide⟩, .inr rfl, by decide⟩

theorem witness_StepDoesNothingUnlessRunnable : State.reset.runState = .stopped ∧
    ({ machine with runState := .waitingForKey 3 } : State).runState = .waitingForKey 3 ∧
    ({ machine with runState := .halted ⟨.stackUnderflow, 0x0200⟩ } : State).runState = .halted ⟨.stackUnderflow, 0x0200⟩ :=
  ⟨rfl, rfl, rfl⟩

theorem witness_HaltingStepChangesOnlyTheRunState :
    let s := machineAt 0x00EE machine
    s.canStep ∧ ∃ t, step s = .next t ∧ t.runState = .halted ⟨.stackUnderflow, 0x0200⟩ := by
  refine ⟨.inl rfl, ?_⟩
  obtain ⟨t, ht, h⟩ := exists_of_gives (p := fun t => decide (t.runState = .halted ⟨.stackUnderflow, 0x0200⟩))
    (r := step (machineAt 0x00EE machine)) (by decide)
  exact ⟨t, ht, of_decide_eq_true h⟩

theorem witness_InstructionsHaltExactlyByTheFaultTable : machine.runState = .running ∧
    faultOf (.call 0x300) { machine with depth := 16 } = some .stackOverflow ∧ faultOf (.call 0x300) { machine with depth := 15 } = none ∧
    faultOf .ret machine = some .stackUnderflow ∧ faultOf .ret { machine with depth := 1 } = none ∧
    faultOf (.drw 0 1 2) { machine with i := 0x0FFF } = some (.outOfBounds 0x1000) ∧
    faultOf (.drw 0 1 2) { machine with i := 0x0FFE } = none ∧ faultOf (.drw 0 1 0) { machine with i := 0xFFFF } = none ∧
    faultOf (.ldB 0) { machine with i := 0x1234 } = some (.outOfBounds 0x1234) ∧ faultOf (.ldB 0) { machine with i := 0x0FFD } = none ∧
    faultOf (.ldMemVx 15) { machine with i := 0x0FF1 } = some (.outOfBounds 0x1000) ∧
    faultOf (.ldVxMem 15) { machine with i := 0x0FF0 } = none ∧ faultOf .cls machine = none := by decide

theorem witness_StepFollowsTheRunStateTable : (¬ State.reset.canStep ∧ ∃ t, step State.reset = .next t) ∧
    (machineAt 0xF30A machine).canStep ∧ ∃ t, step (machineAt 0xF30A machine) = .next t ∧ t.runState = .waitingForKey 3 := by
  refine ⟨⟨by simp [State.canStep, State.reset], _, rfl⟩, .inl rfl, ?_⟩
  obtain ⟨t, ht, h⟩ := exists_of_gives (p := fun t => decide (t.runState = .waitingForKey 3))
    (r := step (machineAt 0xF30A machine)) (by decide)
  exact ⟨t, ht, of_decide_eq_true h⟩

/-- A running machine meets the invariant. -/
theorem machine_inv : machine.Inv :=
  ⟨by decide, by decide, fun h => by simp [machine] at h, fun r h => by simp [machine] at h⟩

/-- A machine halted by a return with nothing held. -/
def haltedMachine : State := { machine with runState := .halted ⟨.stackUnderflow, 0x0200⟩ }

/-- A halted machine meets the invariant. -/
theorem haltedMachine_inv : haltedMachine.Inv :=
  ⟨by decide, by decide, fun h => by simp [haltedMachine] at h, fun r h => by
    have hr : r = ⟨.stackUnderflow, 0x0200⟩ := by simpa [haltedMachine] using h.symm
    subst hr
    exact ⟨rfl, by simp, fun _ => rfl, by simp⟩⟩

theorem witness_StepKeepsTheInvariant : (machine.Inv ∧ ∃ t, step machine = .next t) ∧
    haltedMachine.Inv ∧ ∃ t, step haltedMachine = .next t :=
  ⟨⟨machine_inv, next_of_gives (by decide)⟩, haltedMachine_inv, next_of_gives (by decide)⟩

theorem witness_EveryHostCallKeepsTheInvariant : machine.Inv ∧ (∃ t, perform (.keyDown 7) machine = .next t) ∧
    (∃ t, perform (.load [0x12, 0x00]) machine = .next t) ∧ ∃ t, perform .reset machine = .next t :=
  ⟨machine_inv, ⟨_, rfl⟩, ⟨_, rfl⟩, _, rfl⟩

theorem witness_EveryScheduleRunsThroughAndKeepsTheInvariant : State.reset.Inv ∧ machine.Inv :=
  ⟨⟨by decide, by decide, fun _ => ⟨rfl, rfl, rfl, rfl, ⟨rfl, rfl⟩, rfl⟩, fun r h => by simp [State.reset] at h⟩, machine_inv⟩

theorem witness_OnlyStoresChangeMemory : ∃ t, exec (.addReg 1 2) machine = .next t ∧ (∀ x, Instr.addReg 1 2 ≠ .ldB x) ∧ ∀ x, Instr.addReg 1 2 ≠ .ldMemVx x :=
  ⟨_, rfl, by simp, by simp⟩

theorem witness_OnlyClsAndDrwChangeTheDisplay : ∃ t, exec (.ldB 1) machine = .next t ∧ Instr.ldB 1 ≠ .cls ∧ ∀ x y n, Instr.ldB 1 ≠ .drw x y n :=
  ⟨_, rfl, by simp, by simp⟩

theorem witness_OnlyCallAndRetTouchTheStack : ∃ t, exec (.jp 0x300) machine = .next t ∧ (∀ a, Instr.jp 0x300 ≠ .call a) ∧ Instr.jp 0x300 ≠ .ret :=
  ⟨_, rfl, by simp, by simp⟩

theorem witness_OnlyIndexInstructionsWriteI : ∃ t, exec (.ldMemVx 3) machine = .next t ∧ (∀ a, Instr.ldMemVx 3 ≠ .ldI a) ∧
    (∀ x, Instr.ldMemVx 3 ≠ .addI x) ∧ ∀ x, Instr.ldMemVx 3 ≠ .ldF x := ⟨_, rfl, by simp, by simp, by simp⟩

theorem witness_OnlyTimerMovesWriteTheTimers : ∃ t, exec (.ldVxDT 3) machine = .next t ∧ (∀ x, Instr.ldVxDT 3 ≠ .ldDTVx x) ∧
    ∀ x, Instr.ldVxDT 3 ≠ .ldSTVx x := ⟨_, rfl, by simp, by simp⟩

theorem witness_NoStepWritesTheKeypadOrTheProgramLength : ∃ t, step machine = .next t := next_of_gives (by decide)

theorem witness_FlagRegisterChangesOnlyAsFlagOrDestination :
    (∃ t, exec (.addReg 15 1) machine = .next t ∧ faultOf (.addReg 15 1) machine = none) ∧
    ∃ t, exec (.ldImm 15 7) machine = .next t ∧ readV 15 t ≠ readV 15 machine := ⟨⟨_, rfl, rfl⟩, _, rfl, by decide⟩

theorem witness_OnlyRndTakesARandomByte : ∃ t, exec (.addReg 1 2) machine = .next t ∧ ∀ x kk, Instr.addReg 1 2 ≠ .rnd x kk := ⟨_, rfl, by simp⟩

theorem witness_UnusedStackSlotsAreNotObservable :
    let s : State := { machine with stack := machine.stack.set 0 0x0202, depth := 1 }
    let s' : State := { s with stack := s.stack.set 1 0x0404 }
    AgreeOnHeldSlots s s' ∧ s ≠ s' ∧ ∃ t, step s = .next t := by
  refine ⟨⟨rfl, ?_⟩, ?_, next_of_gives (by decide)⟩
  · decide
  · intro h
    exact absurd (congrArg (fun u : State => u.stack[1]) h) (by decide)

theorem witness_AddAndSubtractSetResultAndFlag : (1 : Reg) ≠ 15 ∧ (2 : Reg) ≠ 1 ∧ (2 : Reg) ≠ 15 := by decide

theorem witness_ShiftsMoveOneBitOutIntoTheFlag : (1 : Reg) ≠ 15 ∧ (2 : Reg) ≠ 1 ∧ (2 : Reg) ≠ 15 := by decide

theorem witness_RndWritesAMaskedFreeByte : (0x0F#8).getLsbD 7 = false := by decide

theorem witness_CallPushesTheAddressAfterIt : ({ machine with depth := 15 } : State).depth.val < 16 ∧ ({ machine with depth := 16 } : State).depth.val = 16 := by
  decide

theorem witness_CallThenRetComesBackAfterTheCall : ({ machine with depth := 15 } : State).depth.val < 16 ∧ (14 : Fin 16).val < 15 := by
  decide

theorem witness_RetPopsTheNewestAddress : ({ machine with depth := 1 } : State).depth.val = (0 : Fin 16).val + 1 ∧
    ({ machine with depth := 16 } : State).depth.val = (15 : Fin 16).val + 1 ∧ machine.depth.val = 0 := by decide

theorem witness_KeySkipsTestTheMaskBit :
    let s := withRegs [(2, 15), (3, 16)] { machine with keypad := 0x7FFF }
    let u : State := { s with keypad := 0x8000 }
    ((readV 2 u).toNat = (15 : Key).val ∧ u.keypad.getLsbD (15 : Key).val = true) ∧
    ((readV 2 s).toNat = (15 : Key).val ∧ s.keypad.getLsbD (15 : Key).val = false) ∧ 15 < (readV 3 s).toNat := by decide

theorem witness_WaitForKeySuspendsUntilAKeyPress : ({ machine with runState := .waitingForKey 3 } : State).runState = .waitingForKey 3 := rfl

theorem witness_KeyEventsSetAndClearTheirBit : ∀ x, machine.runState ≠ .waitingForKey x := by simp [machine]

theorem witness_BcdStoresThreeDigitsAtI : ({ machine with i := 0x0FFD } : State).i.toNat + 2 ≤ 0xFFF := by decide

theorem witness_DumpStoresTheRegistersAtI : ({ machine with i := 0x0FF0 } : State).i.toNat + (15 : Reg).val ≤ 0xFFF ∧
    (15 : Reg).val ≤ (15 : Reg).val := by decide

theorem witness_LoadFillsTheRegistersFromI : ({ machine with i := 0x0FFC } : State).i.toNat + (3 : Reg).val ≤ 0xFFF ∧
    (3 : Reg).val ≤ (3 : Reg).val ∧ (3 : Reg).val < (4 : Reg).val := by decide

theorem witness_DrawXorsTheSpriteAndFlagsCollision :
    let s := withRegs [(0, 60)] (withBytes 0xFFE [0x88, 0x00] { machine with i := 0x0FFE, disp := flipPixel blankDisplay 0 0 })
    ((0 : Nibble).toNat = 0) ∧ (s.i.toNat + (2 : Nibble).toNat - 1 ≤ 0xFFF) ∧
    spriteCovers (readV 0 s) (readV 1 s) 2 s 60 0 ∧ ¬ spriteCovers (readV 0 s) (readV 1 s) 0 s 60 0 ∧
    spriteCollides (readV 0 s) (readV 1 s) 2 s ∧ ¬ spriteCollides (readV 0 s) (readV 1 s) 0 s := by
  refine ⟨by decide, by decide, ⟨0, by decide, 0, by decide, by decide, by decide, by decide⟩, ?_,
    ⟨0, 0, ⟨0, by decide, 4, by decide, by decide, by decide, by decide⟩, by decide⟩, ?_⟩
  · rintro ⟨r, hr, _⟩
    omega
  · rintro ⟨_, _, ⟨r, hr, _⟩, _⟩
    omega

/-- The position in registers 0 and 1, at the last legal base for two rows; and a draw of no rows at the position in `VF`. -/
theorem witness_DrawingTwiceRestoresTheDisplay :
    (((2 : Nibble).toNat = 0 ∨ ({ machine with i := 0x0FFE } : State).i.toNat + (2 : Nibble).toNat - 1 ≤ 0xFFF) ∧
      (0 : Reg) ≠ 15 ∧ (1 : Reg) ≠ 15) ∧
    ((0 : Nibble).toNat = 0 ∨ ({ machine with i := 0xFFFF } : State).i.toNat + (0 : Nibble).toNat - 1 ≤ 0xFFF) := by decide

theorem witness_ResetGivesTheResetTable : 79 < 80 ∧ byteAt (resetMachine machine).mem 79 = 0x80 ∧ 80 ≤ 80 ∧
    byteAt (resetMachine machine).mem 80 = 0 := by decide

theorem witness_StepReportsWhatTheStepDid :
    (machineAt 0x6A2F machine).canStep ∧ stepReport (machineAt 0x6A2F machine) = .next .ok ∧
    machine.canStep ∧ stepReport machine = .next (.unknownReport 0x0000 0x0200) ∧
    (machineAt 0x00EE State.reset).canStep ∧
    stepReport (machineAt 0x00EE State.reset) = .next (.halted ⟨.stackUnderflow, 0x0200⟩) :=
  ⟨.inl rfl, rfl, .inl rfl, rfl, .inr rfl, rfl⟩

theorem witness_LoadInstallsTheImageOnlyWhenStopped : State.reset.runState = .stopped ∧ (List.replicate 3584 (0 : Byte)).length ≤ 3584 ∧
    machine.runState ≠ .stopped := by
  rw [List.length_replicate]
  decide

theorem witness_TooLargeProgramChangesNothing : State.reset.runState = .stopped ∧ 3584 < (List.replicate 3585 (0 : Byte)).length := by
  rw [List.length_replicate]
  decide

theorem witness_DutifulStepKeepsCodeAddressesAndTheFont :
    let s := machineAt 0x2FFE { machine with stack := machine.stack.set 0 0x0202, depth := 1 }
    s.canStep ∧ s.codeAddresses ∧ fetch s = .ok 0x2FFE ∧ decode 0x2FFE = .known (.call 0xFFE) ∧ dutiful (.call 0xFFE) s ∧
      ∃ t, step s = .next t := by
  refine ⟨.inl rfl, ⟨?_, ?_⟩, rfl, by decide, ⟨by decide, by decide, trivial⟩, next_of_gives (by decide)⟩ <;>
    (unfold codeAddress; decide)

end Sys2Proof.Tests
end

section
/-!
The one-byte accesses of 20_memory.md: `MemRead(a, 1)` (R63) and `MemWrite(a, 1, v)` (R65) are `readBytes a 1` and `writeBytes a [v]`,
and the end of memory decides which of their two answers they give.
-/
namespace Sys2Proof.Machine

theorem readBytes_one_ok {a : Nat} (ha : a ≤ 0xFFF) (s : State) : readBytes a 1 s = .ok [byteAt s.mem a] :=
  readBytes_ok (.inr (by omega)) s

theorem readBytes_one_error {a : Nat} (ha : 0xFFF < a) (s : State) : readBytes a 1 s = .error (.outOfBounds a) := by
  rw [readBytes_error ⟨Nat.one_ne_zero, by omega⟩, Nat.max_eq_left ha]

theorem writeBytes_singleton_ok {a : Nat} (ha : a ≤ 0xFFF) (v : Byte) (s : State) :
    writeBytes a [v] s = .ok { s with mem := setByte s.mem a v } :=
  writeBytes_ok (.inr (by rw [List.length_singleton]; omega)) s

theorem writeBytes_singleton_error {a : Nat} (ha : 0xFFF < a) (v : Byte) (s : State) :
    writeBytes a [v] s = .error (.outOfBounds a) := by
  rw [writeBytes_error ⟨List.cons_ne_nil v [], by rw [List.length_singleton]; omega⟩, Nat.max_eq_left ha]

/-- Settles O6: inside memory a write is one `setByte`, which reads back at its own address only; outside, both accesses report the
address itself, the lowest offending one. -/
theorem byteReadAndWriteAreBoundsChecked : Obligations.ByteReadAndWriteAreBoundsChecked := by
  unfold Obligations.ByteReadAndWriteAreBoundsChecked
  intro a v s
  refine ⟨fun ha => ⟨readBytes_one_ok ha s, _, writeBytes_singleton_ok ha v s, ?_, fun k hk => ?_, rfl⟩,
    fun ha => ⟨readBytes_one_error ha s, writeBytes_singleton_error ha v s⟩⟩
  · rw [byteAt_setByte, if_pos rfl]
  · rw [byteAt_setByte, if_neg hk]

end Sys2Proof.Machine
end

section
/-!
The totality of the decoder, 30_encoding.md R94: each family of R96 answers an instruction or `Unknown` of the word it was given, so
`decode`, which hands its own word to the family that `o` selects, does so too.
-/
namespace Sys2Proof

/-- `d` is an answer R94 allows for the word `w`: an instruction, or `Unknown` of `w` itself. -/
def Decoded.Answers (d : Decoded) (w : Word) : Prop := (∃ i, d = .known i) ∨ d = .unknown w

theorem Decoded.known_answers (i : Instr) (w : Word) : (Decoded.known i).Answers w := .inl ⟨i, rfl⟩

theorem Decoded.unknown_answers (w : Word) : (Decoded.unknown w).Answers w := .inr rfl

/-- The families `5` and `9`, and each test of the family `0`: one test of the word before the answer. -/
theorem Decoded.ite_answers {c : Prop} [Decidable c] {d e : Decoded} {w : Word} (hd : d.Answers w) (he : e.Answers w) :
    (if c then d else e).Answers w := by
  split
  · exact hd
  · exact he

open Decoded

theorem decodeFamily0_answers (w : Word) : (decodeFamily0 w).Answers w :=
  ite_answers (known_answers _ w) (ite_answers (known_answers _ w) (unknown_answers w))

theorem decodeFamily8_answers (w : Word) : (decodeFamily8 w).Answers w := by
  unfold decodeFamily8
  split
  case h_10 => exact unknown_answers w
  all_goals exact known_answers _ w

theorem decodeFamilyE_answers (w : Word) : (decodeFamilyE w).Answers w := by
  unfold decodeFamilyE
  split
  case h_3 => exact unknown_answers w
  all_goals exact known_answers _ w

theorem decodeFamilyF_answers (w : Word) : (decodeFamilyF w).Answers w := by
  unfold decodeFamilyF
  split
  case h_10 => exact unknown_answers w
  all_goals exact known_answers _ w

/-- R96: the families `0`, `5`, `8`, `9`, `E` and `F` test more of the word; in the other ten `o` alone selects the instruction. -/
theorem decode_answers (w : Word) : (decode w).Answers w := by
  unfold decode
  split
  case h_1 => exact decodeFamily0_answers w
  case h_6 => exact ite_answers (known_answers _ w) (unknown_answers w)
  case h_9 => exact decodeFamily8_answers w
  case h_10 => exact ite_answers (known_answers _ w) (unknown_answers w)
  case h_15 => exact decodeFamilyE_answers w
  case h_16 => exact decodeFamilyF_answers w
  all_goals exact known_answers _ w

/-- Settles O2: family by family of the decode algorithm, every leaf is an instruction or `Unknown` of the decoder's own word. -/
theorem decodeIsKnownOrUnknownOfTheWord : Obligations.DecodeIsKnownOrUnknownOfTheWord := by
  unfold Obligations.DecodeIsKnownOrUnknownOfTheWord
  exact decode_answers

end Sys2Proof
end

section
/-!
The compare skips of 41_control.md, R139 to R142: each is `skipIf` of its own comparison, so what one skip does to the state is said once,
for every instruction that ends in `skipIf`.
-/
namespace Sys2Proof.Machine

/-- R135: a transfer to any target moves `pc` alone. -/
theorem controlFrame_jumpTo (a : Word) (s : State) : ControlFrame s (jumpTo a s) where
  memory _ := by rw [jumpTo_mem]
  regs r := by rw [readV_jumpTo]
  index := jumpTo_i a s
  timers := ⟨jumpTo_dt a s, jumpTo_st a s⟩
  display _ _ := by rw [jumpTo_disp]
  host := ⟨jumpTo_keypad a s, jumpTo_programLength a s, jumpTo_draws a s⟩
  run := jumpTo_runState a s

theorem sameStack_jumpTo (a : Word) (s : State) : SameStack s (jumpTo a s) := ⟨jumpTo_stack a s, jumpTo_depth a s⟩

theorem controlFrame_skipIf (c : Bool) (s : State) : ControlFrame s (skipIf c s) := controlFrame_jumpTo _ s

theorem sameStack_skipIf (c : Bool) (s : State) : SameStack s (skipIf c s) := sameStack_jumpTo _ s

/-- `skipIf_pc` with the tested Boolean read as the condition it decides. -/
theorem skipIf_pc_of_iff {c : Bool} {p : Prop} [Decidable p] (hc : c = true ↔ p) (s : State) :
    (skipIf c s).pc = if p then s.pc + 2 + 2 else s.pc + 2 := by
  rw [skipIf_pc]
  exact if_congr hc rfl rfl

/-- R144, for every instruction that ends in a skip: the answer, `pc` and the frame. -/
theorem exec_skips_exactly_on {i : Instr} {s : State} {c : Bool} {p : Prop} [Decidable p]
    (hexec : exec i s = .next (skipIf c s)) (hc : c = true ↔ p) :
    ∃ t, exec i s = .next t ∧ t.pc = (if p then s.pc + 2 + 2 else s.pc + 2) ∧ ControlFrame s t ∧ SameStack s t :=
  ⟨skipIf c s, hexec, skipIf_pc_of_iff hc s, controlFrame_skipIf c s, sameStack_skipIf c s⟩

theorem exec_seImm (x : Reg) (kk : Byte) (s : State) : exec (.seImm x kk) s = .next (skipIf (readV x s == kk) s) := rfl

theorem exec_sneImm (x : Reg) (kk : Byte) (s : State) : exec (.sneImm x kk) s = .next (skipIf (readV x s != kk) s) := rfl

theorem exec_seReg (x y : Reg) (s : State) : exec (.seReg x y) s = .next (skipIf (readV x s == readV y s) s) := rfl

theorem exec_sneReg (x y : Reg) (s : State) : exec (.sneReg x y) s = .next (skipIf (readV x s != readV y s) s) := rfl

/-- Settles O41: each compare skip is `skipIf` of a Boolean test, and the test decides the condition of its rule. -/
theorem skipsGoTwoFurtherExactlyOnTheirCondition : Obligations.SkipsGoTwoFurtherExactlyOnTheirCondition := by
  unfold Obligations.SkipsGoTwoFurtherExactlyOnTheirCondition
  intro x y kk s
  exact ⟨exec_skips_exactly_on (exec_seImm x kk s) beq_iff_eq, exec_skips_exactly_on (exec_sneImm x kk s) bne_iff_ne,
    exec_skips_exactly_on (exec_seReg x y s) beq_iff_eq, exec_skips_exactly_on (exec_sneReg x y s) bne_iff_ne⟩

end Sys2Proof.Machine
end

section
/-!
The register instructions of 42_alu.md without a flag, R151 to R156: each is `finishResult` of its own result, so what that shape does to the
state is said once. The frame of a register write and of the advance of `pc` is said one operation at a time and composes.
-/
namespace Sys2Proof.Machine

theorem registerFrame_refl (s : State) : RegisterFrame s s where
  memory _ := rfl
  index := rfl
  stack := ⟨rfl, rfl⟩
  timers := ⟨rfl, rfl⟩
  display _ _ := rfl
  host := ⟨rfl, rfl, rfl⟩
  run := rfl

theorem RegisterFrame.after_writeV {s t : State} (h : RegisterFrame s t) (x : Reg) (b : Byte) : RegisterFrame s (writeV x b t) where
  memory a := by rw [writeV_mem, h.memory a]
  index := by rw [writeV_i, h.index]
  stack := h.stack
  timers := h.timers
  display cx cy := by rw [writeV_disp, h.display cx cy]
  host := h.host
  run := by rw [writeV_runState, h.run]

theorem RegisterFrame.after_advance {s t : State} (h : RegisterFrame s t) : RegisterFrame s (advance t) where
  memory a := by rw [advance_mem, h.memory a]
  index := by rw [advance_i, h.index]
  stack := h.stack
  timers := h.timers
  display cx cy := by rw [advance_disp, h.display cx cy]
  host := h.host
  run := by rw [advance_runState, h.run]

theorem readV_writeV_self (x : Reg) (b : Byte) (s : State) : readV x (writeV x b s) = b := by
  rw [readV_writeV, if_pos rfl]

theorem sameRegsBut_writeV (x : Reg) (b : Byte) (s : State) : SameRegsBut x s (writeV x b s) := fun r hr => by
  rw [readV_writeV, if_neg hr]

/-- R150, for every instruction that ends in `finishResult`: the answer, the result in `V[x]`, the other registers, `pc` and the frame.
`P` is whatever follows from `V[x]` holding the result: each statement describes the result in terms of its own rule. -/
theorem exec_writes_only_its_register {i : Instr} {x : Reg} {b : Byte} {s : State} {P : State → Prop}
    (hexec : exec i s = finishResult x b s) (hP : ∀ t, readV x t = b → P t) :
    ∃ t, exec i s = .next t ∧ P t ∧ SameRegsBut x s t ∧ t.pc = s.pc + 2 ∧ RegisterFrame s t :=
  ⟨advance (writeV x b s), hexec, hP _ (readV_writeV_self x b s), sameRegsBut_writeV x b s, advance_pc _,
    ((registerFrame_refl s).after_writeV x b).after_advance⟩

theorem exec_ldImm (x : Reg) (kk : Byte) (s : State) : exec (.ldImm x kk) s = finishResult x kk s := rfl

theorem exec_addImm (x : Reg) (kk : Byte) (s : State) : exec (.addImm x kk) s = finishResult x (readV x s + kk) s := rfl

theorem exec_ldReg (x y : Reg) (s : State) : exec (.ldReg x y) s = finishResult x (readV y s) s := rfl

theorem exec_orReg (x y : Reg) (s : State) : exec (.orReg x y) s = finishResult x (readV x s ||| readV y s) s := rfl

theorem exec_andReg (x y : Reg) (s : State) : exec (.andReg x y) s = finishResult x (readV x s &&& readV y s) s := rfl

theorem exec_xorReg (x y : Reg) (s : State) : exec (.xorReg x y) s = finishResult x (readV x s ^^^ readV y s) s := rfl

/-- Settles O31: both immediate forms are `finishResult`, and the sum of two bytes is the sum modulo 256. -/
theorem immediateFormsWriteOnlyTheirRegister : Obligations.ImmediateFormsWriteOnlyTheirRegister := by
  unfold Obligations.ImmediateFormsWriteOnlyTheirRegister
  intro x kk s
  refine ⟨exec_writes_only_its_register (exec_ldImm x kk s) fun _ hx => hx,
    exec_writes_only_its_register (exec_addImm x kk s) fun _ hx => ?_⟩
  rw [hx, BitVec.toNat_add]

/-- Settles O32: the four forms are `finishResult`, and each logic operation on bytes is its Boolean operation on every bit. -/
theorem movesAndLogicWriteOnlyTheirRegister : Obligations.MovesAndLogicWriteOnlyTheirRegister := by
  unfold Obligations.MovesAndLogicWriteOnlyTheirRegister
  intro x y s
  refine ⟨exec_writes_only_its_register (exec_ldReg x y s) fun _ hx => hx,
    exec_writes_only_its_register (exec_orReg x y s) fun _ hx k => ?_,
    exec_writes_only_its_register (exec_andReg x y s) fun _ hx k => ?_,
    exec_writes_only_its_register (exec_xorReg x y s) fun _ hx k => ?_⟩
  · rw [hx, BitVec.getLsbD_or]
  · rw [hx, BitVec.getLsbD_and]
  · rw [hx, BitVec.getLsbD_xor]

end Sys2Proof.Machine
end

section
/-!
The index instructions of 43_index_memory.md: each is `advance (writeI a s)` for its own address `a`, so what that shape does to the state is
said once, and an instruction's own rule is only the value of `a` as a number.
-/
namespace Sys2Proof.Machine

@[simp] theorem readV_writeI (r : Reg) (a : Word) (s : State) : readV r (writeI a s) = readV r s := rfl

@[simp] theorem toNat_zextByte (b : Byte) : (zextByte b).toNat = b.toNat := BitVec.toNat_setWidth_of_le (by decide)

@[simp] theorem toNat_zextAddr (nnn : Addr12) : (zextAddr nnn).toNat = nnn.toNat := BitVec.toNat_setWidth_of_le (by decide)

theorem indexFrame_advance_writeI (a : Word) (s : State) : IndexFrame s (advance (writeI a s)) where
  memory _ := by rw [advance_mem, writeI_mem]
  regs r := by rw [readV_advance, readV_writeI]
  stack := ⟨advance_stack _, advance_depth _⟩
  timers := ⟨advance_dt _, advance_st _⟩
  display _ _ := by rw [advance_disp, writeI_disp]
  host := ⟨advance_keypad _, advance_programLength _, advance_draws _⟩
  run := advance_runState _

/-- For every instruction that ends in a write of `I`: the answer, `I` as a number, `pc` and the frame. -/
theorem exec_writes_only_i {i : Instr} {a : Word} {n : Nat} {s : State}
    (hexec : exec i s = .next (advance (writeI a s))) (ha : a.toNat = n) :
    ∃ t, exec i s = .next t ∧ t.i.toNat = n ∧ t.pc = s.pc + 2 ∧ IndexFrame s t :=
  ⟨advance (writeI a s), hexec, by rw [advance_i, writeI_i, ha], advance_pc _, indexFrame_advance_writeI a s⟩

theorem exec_ldI (nnn : Addr12) (s : State) : exec (.ldI nnn) s = .next (advance (writeI (zextAddr nnn) s)) := rfl

theorem exec_addI (x : Reg) (s : State) : exec (.addI x) s = .next (advance (writeI (s.i + zextByte (readV x s)) s)) := rfl

/-- Settles O47: both forms end in a write of `I`, and the sum of two words is the sum modulo 65536 of their numbers. -/
theorem indexInstructionsWriteOnlyI : Obligations.IndexInstructionsWriteOnlyI := by
  unfold Obligations.IndexInstructionsWriteOnlyI
  refine ⟨fun nnn s => exec_writes_only_i (exec_ldI nnn s) (toNat_zextAddr nnn),
    fun x s => exec_writes_only_i (exec_addI x s) ?_⟩
  rw [BitVec.toNat_add, toNat_zextByte]

end Sys2Proof.Machine
end

section
/-!
The clear-screen instruction of 44_display.md: CLS is a write of the blank display and the advance of `pc`. What a write of any display leaves
unchanged is said for every display, so the blank one gives only the value of the pixels.
-/
namespace Sys2Proof.Machine

@[simp] theorem readV_with_disp (r : Reg) (d : Display) (s : State) : readV r { s with disp := d } = readV r s := rfl

theorem sameRegs_advance_with_disp (d : Display) (s : State) : SameRegs s (advance { s with disp := d }) := fun r => by
  rw [readV_advance, readV_with_disp]

theorem displayFrame_advance_with_disp (d : Display) (s : State) : DisplayFrame s (advance { s with disp := d }) where
  memory _ := by rw [advance_mem]
  index := advance_i _
  stack := ⟨advance_stack _, advance_depth _⟩
  timers := ⟨advance_dt _, advance_st _⟩
  host := ⟨advance_keypad _, advance_programLength _, advance_draws _⟩
  run := advance_runState _

theorem exec_cls (s : State) : exec .cls s = .next (advance { s with disp := blankDisplay }) := rfl

/-- Settles O52: CLS writes the blank display, whose pixels are all 0, and a write of the display leaves the rest as it was. -/
theorem clsClearsEveryPixel : Obligations.ClsClearsEveryPixel := by
  unfold Obligations.ClsClearsEveryPixel
  intro s
  refine ⟨_, exec_cls s, fun cx cy => ?_, sameRegs_advance_with_disp _ s, advance_pc _, displayFrame_advance_with_disp _ s⟩
  rw [advance_disp, pixelAt_blankDisplay]

end Sys2Proof.Machine
end

section
/-!
The timer moves of 45_keypad_timers.md, R208 to R210: reading `DT` is `finishResult` of the timer, and writing a timer is an update of that
one field before the advance of `pc`, which moves `pc` alone.
-/
namespace Sys2Proof.Machine

theorem controlFrame_advance (s : State) : ControlFrame s (advance s) := controlFrame_jumpTo _ s

theorem exec_ldVxDT (x : Reg) (s : State) : exec (.ldVxDT x) s = finishResult x s.dt s := rfl

theorem exec_ldDTVx (x : Reg) (s : State) : exec (.ldDTVx x) s = .next (advance { s with dt := readV x s }) := rfl

theorem exec_ldSTVx (x : Reg) (s : State) : exec (.ldSTVx x) s = .next (advance { s with st := readV x s }) := rfl

/-- Settles O43: the read of `DT` writes one register as every `finishResult` does, and each write of a timer advances the state with that
timer replaced, so the other timer is the old one. -/
theorem timerMovesCopyOneByte : Obligations.TimerMovesCopyOneByte := by
  unfold Obligations.TimerMovesCopyOneByte
  intro x s
  exact ⟨exec_writes_only_its_register (exec_ldVxDT x s) fun _ hx => hx,
    ⟨_, exec_ldDTVx x s, advance_dt _, advance_st _, advance_pc _, controlFrame_advance _, advance_stack _, advance_depth _⟩,
    ⟨_, exec_ldSTVx x s, advance_st _, advance_dt _, advance_pc _, controlFrame_advance _, advance_stack _, advance_depth _⟩⟩

end Sys2Proof.Machine
end

section
/-!
The refusal of an image that is too large, R287 of 70_reset_and_hazards.md: the test of the length comes before the copy, so the state is
handed back as it was.
-/
namespace Sys2Proof.Machine

theorem loadProgram_of_tooLarge {bytes : List Byte} {s : State} (hstopped : s.runState = .stopped)
    (hlarge : Config.progMax < bytes.length) : loadProgram bytes s = (.programTooLarge, s) := by
  rw [loadProgram, if_neg (not_not_intro hstopped), if_pos hlarge]

/-- Settles O58: in `Stopped` the length decides, and the largest program, `0x1000 - 0x200` bytes, is 3584 bytes long. -/
theorem tooLargeProgramChangesNothing : Obligations.TooLargeProgramChangesNothing := by
  unfold Obligations.TooLargeProgramChangesNothing
  intro bytes s hstopped hlarge
  exact loadProgram_of_tooLarge hstopped hlarge

end Sys2Proof.Machine
end

section
/-!
Every instruction at once: `effect i s` is the state instruction `i` makes of `s` where the fault table names no fault, and `exec` answers that
state or the fault entry, as `faultOf` says. A rule over all instructions is so a case split over `effect`, and nothing else unfolds `exec`.
-/
namespace Sys2Proof.Machine

/-! ### The fault of a data access -/

theorem accessFault_eq_none_iff {a n : Nat} : accessFault a n = none ↔ n = 0 ∨ a + n ≤ 0x1000 := by
  unfold accessFault
  split
  · simp
    omega
  · simp
    omega

theorem accessFault_eq_some {a n : Nat} {f : Fault} (h : accessFault a n = some f) :
    (n ≠ 0 ∧ 0x1000 < a + n) ∧ f = .outOfBounds (max a 0x1000) := by
  unfold accessFault at h
  split at h
  next hout =>
    rw [Option.some.injEq] at h
    refine ⟨by omega, ?_⟩
    rw [← h, Fault.outOfBounds.injEq]
    split <;> omega
  next => cases h

/-! ### The faults of the call stack -/

theorem faultOf_call_eq_some {nnn : Addr12} {s : State} {f : Fault} (h : faultOf (.call nnn) s = some f) :
    s.depth.val = 16 ∧ f = .stackOverflow := by
  simpa [faultOf, eq_comm] using h

theorem depth_lt_of_faultOf_call {nnn : Addr12} {s : State} (h : faultOf (.call nnn) s = none) : s.depth.val < 16 := by
  have := s.depth.isLt
  have : s.depth.val ≠ 16 := by simpa [faultOf] using h
  omega

theorem faultOf_ret_eq_some {s : State} {f : Fault} (h : faultOf .ret s = some f) : s.depth.val = 0 ∧ f = .stackUnderflow := by
  simpa [faultOf, eq_comm] using h

theorem depth_pos_of_faultOf_ret {s : State} (h : faultOf .ret s = none) : 0 < s.depth.val :=
  Nat.pos_of_ne_zero (by simpa [faultOf] using h)

/-! ### The effect of an instruction that does not fault -/

/-- What instruction `i` makes of the state where it does not fault. For CALL at depth 16 and RET at depth 0 the value means nothing. -/
def effect (i : Instr) (s : State) : State :=
  match i with
  | .cls => advance { s with disp := blankDisplay }
  | .ret => { s with
      pc := s.stack[s.depth.val - 1]'(by have := s.depth.isLt; omega)
      depth := ⟨s.depth.val - 1, by have := s.depth.isLt; omega⟩ }
  | .jp nnn => jumpTo (zextAddr nnn) s
  | .call nnn => { s with stack := s.stack.setIfInBounds s.depth.val (s.pc + 2), depth := s.depth + 1, pc := zextAddr nnn }
  | .seImm x kk => skipIf (readV x s == kk) s
  | .sneImm x kk => skipIf (readV x s != kk) s
  | .seReg x y => skipIf (readV x s == readV y s) s
  | .ldImm x kk => advance (writeV x kk s)
  | .addImm x kk => advance (writeV x (readV x s + kk) s)
  | .ldReg x y => advance (writeV x (readV y s) s)
  | .orReg x y => advance (writeV x (readV x s ||| readV y s) s)
  | .andReg x y => advance (writeV x (readV x s &&& readV y s) s)
  | .xorReg x y => advance (writeV x (readV x s ^^^ readV y s) s)
  | .addReg x y => advance (writeResultThenFlag x (readV x s + readV y s) (carryOut (readV x s) (readV y s)) s)
  | .sub x y => advance (writeResultThenFlag x (readV x s - readV y s) (noBorrow (readV x s) (readV y s)) s)
  | .shr x _ => advance (writeResultThenFlag x (readV x s >>> 1) (bitOutRight (readV x s)) s)
  | .subn x y => advance (writeResultThenFlag x (readV y s - readV x s) (noBorrow (readV y s) (readV x s)) s)
  | .shl x _ => advance (writeResultThenFlag x (readV x s <<< 1) (bitOutLeft (readV x s)) s)
  | .sneReg x y => skipIf (readV x s != readV y s) s
  | .ldI nnn => advance (writeI (zextAddr nnn) s)
  | .jpV0 nnn => jumpTo (zextAddr nnn + zextByte (readV 0 s)) s
  | .rnd x kk => drawRandom (Config.randByte s.draws) x kk s
  | .drw x y n => advance (drawSprite (readV x s) (readV y s) (bytesFrom s.mem s.i.toNat n.toNat) s)
  | .skp x => skipIf (keyPressed (readV x s) s) s
  | .sknp x => skipIf (!(keyPressed (readV x s) s)) s
  | .ldVxDT x => advance (writeV x s.dt s)
  | .ldVxK x => advance { s with runState := .waitingForKey x }
  | .ldDTVx x => advance { s with dt := readV x s }
  | .ldSTVx x => advance { s with st := readV x s }
  | .addI x => advance (writeI (s.i + zextByte (readV x s)) s)
  | .ldF x => advance (writeI (5 * zextByte (readV x s)) s)
  | .ldB x => advance { s with mem := setBytes s.mem s.i.toNat (bcdDigits (readV x s)) }
  | .ldMemVx x => advance { s with mem := setBytes s.mem s.i.toNat (regsThrough x s) }
  | .ldVxMem x => advance (loadRegs (bytesFrom s.mem s.i.toNat (x.val + 1)) s)

/-- With room on the stack the pushed slot and the new depth of `effect` are those of a push. -/
theorem effect_call_of_lt {nnn : Addr12} {s : State} (h : s.depth.val < 16) :
    effect (.call nnn) s = { s with
      stack := s.stack.set s.depth.val (s.pc + 2), depth := ⟨s.depth.val + 1, by omega⟩, pc := zextAddr nnn } := by
  have hdepth : s.depth + 1 = ⟨s.depth.val + 1, by omega⟩ := Fin.ext (Fin.val_add_one_of_lt' (by omega))
  simp [effect, hdepth, Vector.setIfInBounds, Vector.set, Array.setIfInBounds, h]

/-- The first half of the fault table (60_exceptions.md R233, R235): where it names a fault, that fault is taken. -/
theorem exec_of_faultOf_eq_some {i : Instr} {s : State} {f : Fault} (h : faultOf i s = some f) :
    exec i s = .next (takeFault f s) := by
  cases i
  case call nnn =>
    obtain ⟨hd, rfl⟩ := faultOf_call_eq_some h
    simp only [exec, execCall, pushReturn_error hd, map_error, commit_error]
  case ret =>
    obtain ⟨hd, rfl⟩ := faultOf_ret_eq_some h
    simp only [exec, execRet, popReturn_error hd, commit_error]
  case drw x y n =>
    obtain ⟨hout, rfl⟩ := accessFault_eq_some h
    simp only [exec, execDrw, base, readBytes_error hout, map_error, commit_error]
  case ldB x =>
    obtain ⟨hout, rfl⟩ := accessFault_eq_some h
    simp only [exec, execLdB, base, writeBytes_error (bs := bcdDigits (readV x s)) ⟨List.cons_ne_nil _ _, hout.2⟩, map_error, commit_error]
  case ldMemVx x =>
    obtain ⟨hout, rfl⟩ := accessFault_eq_some h
    have hlen : regsThrough x s ≠ [] ∧ 0x1000 < s.i.toNat + (regsThrough x s).length := by
      rw [← List.length_pos_iff, length_regsThrough]
      omega
    simp only [exec, execLdMemVx, base, writeBytes_error hlen, map_error, commit_error]
  case ldVxMem x =>
    obtain ⟨hout, rfl⟩ := accessFault_eq_some h
    simp only [exec, execLdVxMem, base, readBytes_error hout, map_error, commit_error]
  all_goals cases h

/-- The second half: where it names none, the instruction has its effect. -/
theorem exec_of_faultOf_eq_none {i : Instr} {s : State} (h : faultOf i s = none) : exec i s = .next (effect i s) := by
  cases i
  case call nnn =>
    have hd := depth_lt_of_faultOf_call h
    rw [effect_call_of_lt hd, exec_call_ok hd]
  case ret => exact exec_ret_ok (depth_pos_of_faultOf_ret h)
  case drw x y n => exact exec_drw_ok (accessFault_eq_none_iff.1 h)
  case ldB x => exact exec_ldB_ok ((accessFault_eq_none_iff.1 h).resolve_left (by decide))
  case ldMemVx x => exact exec_ldMemVx_ok ((accessFault_eq_none_iff.1 h).resolve_left (Nat.succ_ne_zero _))
  case ldVxMem x => exact exec_ldVxMem_ok ((accessFault_eq_none_iff.1 h).resolve_left (Nat.succ_ne_zero _))
  all_goals rfl

/-- Everything an instruction can do. -/
theorem exec_cases {i : Instr} {s t : State} (h : exec i s = .next t) :
    (∃ f, faultOf i s = some f ∧ t = takeFault f s) ∨ (faultOf i s = none ∧ t = effect i s) := by
  cases hf : faultOf i s with
  | some f =>
    rw [exec_of_faultOf_eq_some hf, Host.Outcome.next.injEq] at h
    exact .inl ⟨f, rfl, h.symm⟩
  | none =>
    rw [exec_of_faultOf_eq_none hf, Host.Outcome.next.injEq] at h
    exact .inr ⟨rfl, h.symm⟩

/-- A rule about two states holds of an instruction when it holds of its effect and of every fault entry. -/
theorem exec_induction {P : State → Prop} {i : Instr} {s t : State} (h : exec i s = .next t) (hfault : ∀ f, P (takeFault f s))
    (heffect : P (effect i s)) : P t := by
  rcases exec_cases h with ⟨f, -, rfl⟩ | ⟨-, rfl⟩
  · exact hfault f
  · exact heffect

end Sys2Proof.Machine
end

section
/-!
Who may change what (10_state.md section 5, 20_memory.md R62): for each part of the state, the effects of all instructions but its writers
leave it, and so does every fault entry.
-/
namespace Sys2Proof.Machine

/-! ### What an effect leaves unchanged -/

theorem effect_mem {i : Instr} (s : State) (hbcd : ∀ x, i ≠ .ldB x) (hdump : ∀ x, i ≠ .ldMemVx x) : (effect i s).mem = s.mem := by
  cases i
  case ldB x => exact absurd rfl (hbcd x)
  case ldMemVx x => exact absurd rfl (hdump x)
  all_goals rfl

theorem effect_disp {i : Instr} (s : State) (hcls : i ≠ .cls) (hdrw : ∀ x y n, i ≠ .drw x y n) : (effect i s).disp = s.disp := by
  cases i
  case cls => exact absurd rfl hcls
  case drw x y n => exact absurd rfl (hdrw x y n)
  all_goals rfl

theorem sameStack_effect {i : Instr} (s : State) (hcall : ∀ a, i ≠ .call a) (hret : i ≠ .ret) : SameStack s (effect i s) := by
  cases i
  case call nnn => exact absurd rfl (hcall nnn)
  case ret => exact absurd rfl hret
  all_goals exact ⟨rfl, rfl⟩

theorem effect_i {i : Instr} (s : State) (hset : ∀ a, i ≠ .ldI a) (hadd : ∀ x, i ≠ .addI x) (hglyph : ∀ x, i ≠ .ldF x) :
    (effect i s).i = s.i := by
  cases i
  case ldI nnn => exact absurd rfl (hset nnn)
  case addI x => exact absurd rfl (hadd x)
  case ldF x => exact absurd rfl (hglyph x)
  all_goals rfl

theorem effect_dt {i : Instr} (s : State) (h : ∀ x, i ≠ .ldDTVx x) : (effect i s).dt = s.dt := by
  cases i
  case ldDTVx x => exact absurd rfl (h x)
  all_goals rfl

theorem effect_st {i : Instr} (s : State) (h : ∀ x, i ≠ .ldSTVx x) : (effect i s).st = s.st := by
  cases i
  case ldSTVx x => exact absurd rfl (h x)
  all_goals rfl

@[simp] theorem effect_keypad (i : Instr) (s : State) : (effect i s).keypad = s.keypad := by
  cases i <;> rfl

@[simp] theorem effect_programLength (i : Instr) (s : State) : (effect i s).programLength = s.programLength := by
  cases i <;> rfl

theorem effect_draws {i : Instr} (s : State) (h : ∀ x kk, i ≠ .rnd x kk) : (effect i s).draws = s.draws := by
  cases i
  case rnd x kk => exact absurd rfl (h x kk)
  all_goals rfl

/-- Only RND looks at the count of draws. -/
theorem effect_with_draws {i : Instr} (s : State) (k : Nat) (h : ∀ x kk, i ≠ .rnd x kk) :
    effect i { s with draws := k } = { effect i s with draws := k } := by
  cases i
  case rnd x kk => exact absurd rfl (h x kk)
  all_goals rfl

theorem faultOf_with_draws (i : Instr) (s : State) (k : Nat) : faultOf i { s with draws := k } = faultOf i s := by
  cases i <;> rfl

/-! ### The statements -/

/-- Settles O22: the effects of the other instructions, and every fault entry, leave the memory list. -/
theorem onlyStoresChangeMemory : Obligations.OnlyStoresChangeMemory := by
  unfold Obligations.OnlyStoresChangeMemory
  intro i s t hexec hbcd hdump
  refine exec_induction (P := SameMemory s) hexec (fun f a => ?_) fun a => ?_
  · rw [takeFault_mem]
  · rw [effect_mem s hbcd hdump]

theorem keyDown_disp (k : Key) (s : State) : (keyDown k s).disp = s.disp := by
  unfold keyDown
  split <;> rfl

/-- Settles O23: the effects of the other instructions, every fault entry, ticks and key events leave the pixels. -/
theorem onlyClsAndDrwChangeTheDisplay : Obligations.OnlyClsAndDrwChangeTheDisplay := by
  unfold Obligations.OnlyClsAndDrwChangeTheDisplay
  refine ⟨fun i s t hexec hcls hdrw => ?_, fun s cx cy => ?_, fun k s => ⟨fun cx cy => ?_, fun cx cy => ?_⟩⟩
  · refine exec_induction (P := SameDisplay s) hexec (fun f cx cy => ?_) fun cx cy => ?_
    · rw [takeFault_disp]
    · rw [effect_disp s hcls hdrw]
  · rw [tickTimers_disp]
  · rw [keyDown_disp]
  · rw [keyUp_disp]

/-- Settles O24: the effects of the other instructions, and every fault entry, leave the slots and the depth. -/
theorem onlyCallAndRetTouchTheStack : Obligations.OnlyCallAndRetTouchTheStack := by
  unfold Obligations.OnlyCallAndRetTouchTheStack
  intro i s t hexec hcall hret
  exact exec_induction (P := SameStack s) hexec (fun f => ⟨takeFault_stack f s, takeFault_depth f s⟩) (sameStack_effect s hcall hret)

/-- Settles O25: the effects of the other instructions, and every fault entry, leave `I`. -/
theorem onlyIndexInstructionsWriteI : Obligations.OnlyIndexInstructionsWriteI := by
  unfold Obligations.OnlyIndexInstructionsWriteI
  intro i s t hexec hset hadd hglyph
  exact exec_induction (P := fun t => t.i = s.i) hexec (fun f => takeFault_i f s) (effect_i s hset hadd hglyph)

/-- Settles O26: each timer by itself, the effects of all instructions but its own move leave it, and so does every fault entry. -/
theorem onlyTimerMovesWriteTheTimers : Obligations.OnlyTimerMovesWriteTheTimers := by
  unfold Obligations.OnlyTimerMovesWriteTheTimers
  intro i s t hexec
  exact ⟨fun h => exec_induction (P := fun t => t.dt = s.dt) hexec (fun f => takeFault_dt f s) (effect_dt s h),
    fun h => exec_induction (P := fun t => t.st = s.st) hexec (fun f => takeFault_st f s) (effect_st s h)⟩

/-- Settles O29: neither the fault table nor an effect other than RND's looks at the count of draws. -/
theorem onlyRndTakesARandomByte : Obligations.OnlyRndTakesARandomByte := by
  unfold Obligations.OnlyRndTakesARandomByte
  intro i s t k hrnd hexec
  rcases exec_cases hexec with ⟨f, hf, rfl⟩ | ⟨hf, rfl⟩
  · exact ⟨takeFault_draws f s, exec_of_faultOf_eq_some (by rw [faultOf_with_draws, hf])⟩
  · rw [exec_of_faultOf_eq_none (by rw [faultOf_with_draws, hf]), effect_with_draws s k hrnd]
    exact ⟨effect_draws s hrnd, rfl⟩

/-! ### The flag register -/

theorem flagByte_eq_zero_or_one (c : Bool) : flagByte c = 0 ∨ flagByte c = 1 := by
  cases c
  · exact .inl rfl
  · exact .inr rfl

/-- The six instructions of 10_state.md R24 that write `VF` as a flag. -/
def WritesFlag (i : Instr) : Prop :=
  ∃ x y, i = .addReg x y ∨ i = .sub x y ∨ i = .shr x y ∨ i = .subn x y ∨ i = .shl x y ∨ ∃ n, i = .drw x y n

theorem readV_flag_advance_writeResultThenFlag (x : Reg) (b : Byte) (c : Bool) (s : State) :
    readV 15 (advance (writeResultThenFlag x b c s)) = flagByte c := by
  rw [readV_advance, readV_writeResultThenFlag, if_pos rfl]

theorem readV_flag_drawSprite (x y : Byte) (rows : List Byte) (s : State) :
    readV 15 (drawSprite x y rows s) = flagByte (blit x y rows s.disp).collided := by
  rw [drawSprite, readV_setFlag, if_pos rfl]

/-- The flag is the last write of a flag-writing instruction. -/
theorem exists_flagByte_of_writesFlag {i : Instr} (s : State) (h : WritesFlag i) : ∃ c, readV 15 (effect i s) = flagByte c := by
  obtain ⟨x, y, rfl | rfl | rfl | rfl | rfl | ⟨n, rfl⟩⟩ := h
  case inr.inr.inr.inr.inr => exact ⟨_, readV_flag_drawSprite _ _ _ s⟩
  all_goals exact ⟨_, readV_flag_advance_writeResultThenFlag _ _ _ s⟩

theorem eq_of_readV_writeV_ne {x r : Reg} {b : Byte} {s : State} (h : readV r (writeV x b s) ≠ readV r s) : r = x := by
  by_contra hne
  exact h (by rw [readV_writeV, if_neg hne])

/-- A register load reaches register 15 only when it loads all sixteen. -/
theorem eq_of_readV_loadRegs_ne {x : Reg} {m : Memory} {a : Nat} {s : State}
    (h : readV 15 (loadRegs (bytesFrom m a (x.val + 1)) s) ≠ readV 15 s) : x = 15 := by
  have hx : (15 : Reg).val < (bytesFrom m a (x.val + 1)).length := by
    by_contra hlt
    exact h (by rw [readV_loadRegs, dif_neg hlt])
  rw [length_bytesFrom] at hx
  exact Fin.le_antisymm (Fin.le_last x) (Nat.le_of_lt_succ hx)

/-- Register 15 is the destination of the instruction, or among the registers it loads. -/
def HasFlagDestination (i : Instr) : Prop :=
  (∃ y, i = .ldReg 15 y ∨ i = .orReg 15 y ∨ i = .andReg 15 y ∨ i = .xorReg 15 y) ∨
  (∃ kk, i = .ldImm 15 kk ∨ i = .addImm 15 kk ∨ i = .rnd 15 kk) ∨ i = .ldVxDT 15 ∨ i = .ldVxMem 15

theorem writesFlag_or_hasFlagDestination {i : Instr} {s : State} (h : readV 15 (effect i s) ≠ readV 15 s) :
    WritesFlag i ∨ HasFlagDestination i := by
  cases i
  case addReg x y => exact .inl ⟨x, y, .inl rfl⟩
  case sub x y => exact .inl ⟨x, y, .inr (.inl rfl)⟩
  case shr x y => exact .inl ⟨x, y, .inr (.inr (.inl rfl))⟩
  case subn x y => exact .inl ⟨x, y, .inr (.inr (.inr (.inl rfl)))⟩
  case shl x y => exact .inl ⟨x, y, .inr (.inr (.inr (.inr (.inl rfl))))⟩
  case drw x y n => exact .inl ⟨x, y, .inr (.inr (.inr (.inr (.inr ⟨n, rfl⟩))))⟩
  case ldReg x y =>
    obtain rfl := eq_of_readV_writeV_ne h
    exact .inr (.inl ⟨y, .inl rfl⟩)
  case orReg x y =>
    obtain rfl := eq_of_readV_writeV_ne h
    exact .inr (.inl ⟨y, .inr (.inl rfl)⟩)
  case andReg x y =>
    obtain rfl := eq_of_readV_writeV_ne h
    exact .inr (.inl ⟨y, .inr (.inr (.inl rfl))⟩)
  case xorReg x y =>
    obtain rfl := eq_of_readV_writeV_ne h
    exact .inr (.inl ⟨y, .inr (.inr (.inr rfl))⟩)
  case ldImm x kk =>
    obtain rfl := eq_of_readV_writeV_ne h
    exact .inr (.inr (.inl ⟨kk, .inl rfl⟩))
  case addImm x kk =>
    obtain rfl := eq_of_readV_writeV_ne h
    exact .inr (.inr (.inl ⟨kk, .inr (.inl rfl)⟩))
  case rnd x kk =>
    obtain rfl := eq_of_readV_writeV_ne h
    exact .inr (.inr (.inl ⟨kk, .inr (.inr rfl)⟩))
  case ldVxDT x =>
    obtain rfl := eq_of_readV_writeV_ne h
    exact .inr (.inr (.inr (.inl rfl)))
  case ldVxMem x =>
    obtain rfl := eq_of_readV_loadRegs_ne h
    exact .inr (.inr (.inr (.inr rfl)))
  all_goals exact absurd rfl h

/-- Settles O28: a flag-writing instruction writes the flag last, and every other effect that reaches register 15 is a write of the
instruction's own destination. -/
theorem flagRegisterChangesOnlyAsFlagOrDestination : Obligations.FlagRegisterChangesOnlyAsFlagOrDestination := by
  unfold Obligations.FlagRegisterChangesOnlyAsFlagOrDestination
  intro i s t hexec
  rcases exec_cases hexec with ⟨f, hf, rfl⟩ | ⟨-, rfl⟩
  · exact ⟨fun _ hnone => absurd (hf.symm.trans hnone) (Option.some_ne_none f), fun h => absurd (readV_takeFault 15 f s) h⟩
  · refine ⟨fun hi _ => ?_, writesFlag_or_hasFlagDestination⟩
    obtain ⟨c, hc⟩ := exists_flagByte_of_writesFlag s hi
    rw [hc]
    exact flagByte_eq_zero_or_one c

end Sys2Proof.Machine
end

section
/-!
The step over all states (40_step_cycle.md): it does nothing, halts, advances over an Unknown word, or has the effect of the decoded
instruction. The statements about run states, results and halting are read off these four cases.
-/
namespace Sys2Proof.Machine

/-! ### The cycle starts from the state itself, with `Running` set -/

theorem faultOf_asRunning (i : Instr) (s : State) : faultOf i s.asRunning = faultOf i s := by
  cases i <;> rfl

theorem takeFault_asRunning (f : Fault) (s : State) : takeFault f s.asRunning = takeFault f s := rfl

theorem asRunning_of_running {s : State} (h : s.runState = .running) : s.asRunning = s := by
  rw [State.asRunning, ← h]

/-! ### What one step does -/

/-- The fault a cycle from `s` raises: the fetch's, or the one the fault table names for the decoded instruction. -/
def CycleFault (s : State) (f : Fault) : Prop :=
  fetch s = .error f ∨ ∃ w i, fetch s = .ok w ∧ decode w = .known i ∧ faultOf i s = some f

/-- The outcomes of a step from `s`. -/
inductive StepOutcome (s : State) : State → Prop
  /-- `Stopped`, `WaitingForKey`, `Halted`. -/
  | nothing (h : ¬ s.canStep) : StepOutcome s s
  /-- A fatal fault. -/
  | halts {f : Fault} (h : s.canStep) (hf : CycleFault s f) : StepOutcome s (takeFault f s)
  /-- An Unknown word. -/
  | skipsUnknown {w u : Word} (h : s.canStep) (hw : fetch s = .ok w) (hu : decode w = .unknown u) :
      StepOutcome s (advance s.asRunning)
  /-- An instruction that does not fault. -/
  | executes {w : Word} {i : Instr} (h : s.canStep) (hw : fetch s = .ok w) (hi : decode w = .known i) (hf : faultOf i s = none) :
      StepOutcome s (effect i s.asRunning)

theorem cycle_of_fetch_error {s : State} {f : Fault} (hf : fetch s = .error f) : cycle s = .next (takeFault f s) := by
  simp only [cycle, hf]

theorem cycle_of_unknown {s : State} {w u : Word} (hw : fetch s = .ok w) (hu : decode w = .unknown u) : cycle s = .next (advance s) := by
  simp only [cycle, hw, hu, execDecoded, execUnknown]

theorem cycle_of_known {s : State} {w : Word} {i : Instr} (hw : fetch s = .ok w) (hi : decode w = .known i) : cycle s = exec i s := by
  simp only [cycle, hw, hi, execDecoded]

theorem exists_exec_eq_next (i : Instr) (s : State) : ∃ t, exec i s = .next t := by
  cases hf : faultOf i s with
  | some f => exact ⟨_, exec_of_faultOf_eq_some hf⟩
  | none => exact ⟨_, exec_of_faultOf_eq_none hf⟩

theorem exists_cycle_eq_next (s : State) : ∃ t, cycle s = .next t := by
  cases hw : fetch s with
  | error f => exact ⟨_, cycle_of_fetch_error hw⟩
  | ok w =>
    cases hd : decode w with
    | unknown u => exact ⟨_, cycle_of_unknown hw hd⟩
    | known i => exact cycle_of_known hw hd ▸ exists_exec_eq_next i s

theorem exists_step_eq_next (s : State) : ∃ t, step s = .next t := by
  by_cases h : s.canStep
  · rw [step_of_canStep h]
    exact exists_cycle_eq_next _
  · exact ⟨s, step_of_not_canStep h⟩

/-- Everything a step can do. -/
theorem step_cases {s t : State} (hstep : step s = .next t) : StepOutcome s t := by
  by_cases h : s.canStep
  · rw [step_of_canStep h] at hstep
    rcases cycle_cases hstep with ⟨f, hf, rfl⟩ | ⟨w, hw, ⟨u, hu, rfl⟩ | ⟨i, hi, hexec⟩⟩
    · exact .halts h (.inl hf)
    · exact .skipsUnknown h hw hu
    · rcases exec_cases hexec with ⟨f, hf, rfl⟩ | ⟨hf, rfl⟩
      · rw [faultOf_asRunning] at hf
        exact .halts h (.inr ⟨w, i, hw, hi, hf⟩)
      · rw [faultOf_asRunning] at hf
        exact .executes h hw hi hf
  · rw [step_of_not_canStep h, Host.Outcome.next.injEq] at hstep
    exact hstep ▸ .nothing h

/-- Every outcome is the answer of the step. -/
theorem step_of_outcome {s t : State} (h : StepOutcome s t) : step s = .next t := by
  cases h with
  | nothing h => exact step_of_not_canStep h
  | @halts f h hf =>
    rw [step_of_canStep h, ← takeFault_asRunning]
    rcases hf with hf | ⟨w, i, hw, hi, hf⟩
    · exact cycle_of_fetch_error hf
    · rw [cycle_of_known (s := s.asRunning) hw hi]
      exact exec_of_faultOf_eq_some ((faultOf_asRunning i s).trans hf)
  | skipsUnknown h hw hu =>
    rw [step_of_canStep h]
    exact cycle_of_unknown hw hu
  | @executes w i h hw hi hf =>
    rw [step_of_canStep h, cycle_of_known (s := s.asRunning) hw hi]
    exact exec_of_faultOf_eq_none ((faultOf_asRunning i s).trans hf)

/-! ### The run state after an effect -/

theorem effect_runState {i : Instr} (s : State) (h : ∀ x, i ≠ .ldVxK x) : (effect i s).runState = s.runState := by
  cases i
  case ldVxK x => exact absurd rfl (h x)
  all_goals rfl

/-- From `Running` an effect leads to `Running`, or with wait-for-key to the wait for its register. -/
theorem effect_runState_of_running {i : Instr} {s : State} (hs : s.runState = .running) :
    ((effect i s).runState = .running ∧ ∀ x, i ≠ .ldVxK x) ∨ ∃ x, i = .ldVxK x ∧ (effect i s).runState = .waitingForKey x := by
  by_cases h : ∃ x, i = .ldVxK x
  · obtain ⟨x, rfl⟩ := h
    exact .inr ⟨x, rfl, rfl⟩
  · have h : ∀ x, i ≠ .ldVxK x := fun x hx => h ⟨x, hx⟩
    exact .inl ⟨(effect_runState s h).trans hs, h⟩

theorem effect_not_isHalted {i : Instr} {s : State} (hs : s.runState = .running) : ¬ (effect i s).isHalted := by
  rintro ⟨r, hr⟩
  rcases effect_runState_of_running (i := i) hs with ⟨hrun, -⟩ | ⟨x, -, hrun⟩
  all_goals
    rw [hrun] at hr
    cases hr

theorem advance_asRunning_not_isHalted (s : State) : ¬ (advance s.asRunning).isHalted := by
  rintro ⟨r, hr⟩
  cases hr

/-! ### The statements -/

/-- Settles O14: a cycle answers a next state whatever it fetches, and the other steps answer the state itself. -/
theorem everyStepAnswersANextState : Obligations.EveryStepAnswersANextState := by
  unfold Obligations.EveryStepAnswersANextState
  exact exists_step_eq_next

/-- Settles O15: of the outcomes of a runnable step only the fault entry is halted, and it changes the run state alone. -/
theorem haltingStepChangesOnlyTheRunState : Obligations.HaltingStepChangesOnlyTheRunState := by
  unfold Obligations.HaltingStepChangesOnlyTheRunState
  intro s t r hcan hstep hr
  cases step_cases hstep with
  | nothing h => exact absurd hcan h
  | halts h hf =>
    cases hr
    exact ⟨rfl, rfl⟩
  | skipsUnknown h hw hu => exact absurd ⟨r, hr⟩ (advance_asRunning_not_isHalted s)
  | executes h hw hi hf => exact absurd ⟨r, hr⟩ (effect_not_isHalted rfl)

/-- Settles O16: the fault the table names is taken, and without one the effect leaves a running machine running or waiting. -/
theorem instructionsHaltExactlyByTheFaultTable : Obligations.InstructionsHaltExactlyByTheFaultTable := by
  unfold Obligations.InstructionsHaltExactlyByTheFaultTable
  intro i s hrun
  exact ⟨fun f hf => exec_of_faultOf_eq_some hf, fun hf => ⟨_, exec_of_faultOf_eq_none hf, effect_not_isHalted hrun⟩⟩

/-- Only wait-for-key, fetched and decoded, is followed by a wait. -/
theorem fetched_iff_of_decode_known {s : State} {w : Word} {i : Instr} (hw : fetch s = .ok w) (hi : decode w = .known i) (x : Reg) :
    (∃ w, fetch s = .ok w ∧ decode w = .known (.ldVxK x)) ↔ i = .ldVxK x := by
  simp [hw, hi]

/-- Settles O17: the fault entry halts, an Unknown word runs on, and an effect waits exactly for wait-for-key. -/
theorem stepFollowsTheRunStateTable : Obligations.StepFollowsTheRunStateTable := by
  unfold Obligations.StepFollowsTheRunStateTable
  intro s t hstep
  cases step_cases hstep with
  | nothing h => exact ⟨fun _ => rfl, fun hcan => absurd hcan h⟩
  | @halts f h hf =>
    refine ⟨fun hn => absurd h hn, fun _ => ⟨.inr (.inl ⟨_, rfl⟩), fun x => ⟨fun hx => (by cases hx), ?_⟩⟩⟩
    rintro ⟨w, hw, hd⟩
    rcases hf with hf | ⟨w', i, hw', hi, hf⟩
    · rw [hw] at hf
      cases hf
    · rw [(fetched_iff_of_decode_known hw' hi x).1 ⟨w, hw, hd⟩] at hf
      cases hf
  | @skipsUnknown w u h hw hu =>
    refine ⟨fun hn => absurd h hn, fun _ => ⟨.inl rfl, fun x => ⟨fun hx => (by cases hx), ?_⟩⟩⟩
    rintro ⟨w', hw', hd⟩
    rw [hw, Except.ok.injEq] at hw'
    rw [← hw', hu] at hd
    cases hd
  | @executes w i h hw hi hf =>
    refine ⟨fun hn => absurd h hn, fun _ => ?_⟩
    simp only [fetched_iff_of_decode_known hw hi]
    rcases effect_runState_of_running (i := i) (s := s.asRunning) rfl with ⟨hrun, hne⟩ | ⟨x, rfl, hrun⟩
    · exact ⟨.inl hrun, fun x => ⟨fun hx => (by rw [hrun] at hx; cases hx), fun hx => absurd hx (hne x)⟩⟩
    · refine ⟨.inr (.inr ⟨x, hrun⟩), fun y => ?_⟩
      rw [hrun, RunState.waitingForKey.injEq, Instr.ldVxK.injEq]

/-- Settles O27: no outcome of a step writes either field. -/
theorem noStepWritesTheKeypadOrTheProgramLength : Obligations.NoStepWritesTheKeypadOrTheProgramLength := by
  unfold Obligations.NoStepWritesTheKeypadOrTheProgramLength
  intro s t hstep
  cases step_cases hstep with
  | nothing h => exact ⟨rfl, rfl⟩
  | halts h hf => exact ⟨takeFault_keypad _ s, takeFault_programLength _ s⟩
  | skipsUnknown h hw hu => exact ⟨advance_keypad s.asRunning, advance_programLength s.asRunning⟩
  | executes h hw hi hf => exact ⟨effect_keypad _ s.asRunning, effect_programLength _ s.asRunning⟩

/-! ### The cycle in terms of the two bytes at `pc` -/

/-- Settles O10: the fetch answers the two bytes at `pc`, and the cycle runs what they decode to. -/
theorem stepRunsTheDecodedInstruction : Obligations.StepRunsTheDecodedInstruction := by
  unfold Obligations.StepRunsTheDecodedInstruction
  intro i s hpc hd
  have hcycle : cycle s.asRunning = exec i s.asRunning := cycle_of_known (fetch_ok hpc) hd
  refine ⟨fun hrun => ?_, fun hload => ?_⟩
  · rw [step_of_canStep (.inl hrun), hcycle, asRunning_of_running hrun]
  · rw [step_of_canStep (.inr hload), hcycle]
    rfl

/-- Settles O12: the fetch faults with the lowest missing address, `pc` itself or `0x1000`. -/
theorem fetchPastMemoryHalts : Obligations.FetchPastMemoryHalts := by
  unfold Obligations.FetchPastMemoryHalts
  intro s hcan hpc
  have haddr : max s.pc.toNat 0x1000 = if 0xFFF < s.pc.toNat then s.pc.toNat else 0x1000 := by
    split <;> omega
  rw [step_of_outcome (.halts hcan (.inl (fetch_error hpc))), haddr]
  rfl

/-! ### The result of a step -/

theorem reportOf_of_halted {s t : State} {r : FaultRecord} (h : t.runState = .halted r) : reportOf s t = .halted r := by
  simp only [reportOf, h]

theorem reportOf_of_executed {s t : State} (hs : s.canStep) (ht : ¬ t.isHalted) : reportOf s t = executedReport s := by
  unfold reportOf
  split
  next r hr => exact absurd ⟨r, hr⟩ ht
  next hstop _ => exact absurd hstop (by rcases hs with hs | hs <;> simp [hs])
  next hwait _ => exact absurd hwait (by rcases hs with hs | hs <;> simp [hs])
  next => rfl

theorem executedReport_of_unknown {s : State} {w u : Word} (hw : fetch s = .ok w) (hu : decode w = .unknown u) :
    executedReport s = .unknownReport u s.pc := by
  simp only [executedReport, hw, hu]

theorem executedReport_of_known {s : State} {w : Word} {i : Instr} (hw : fetch s = .ok w) (hi : decode w = .known i) :
    executedReport s = .ok := by
  simp only [executedReport, hw, hi]

/-- The decoder's Unknown carries the word it was given. -/
theorem eq_of_decode_eq_unknown {w u : Word} (h : decode w = .unknown u) : u = w := by
  rcases decode_answers w with ⟨i, hi⟩ | hw
  · rw [hi] at h
    cases h
  · rw [hw, Decoded.unknown.injEq] at h
    exact h.symm

/-- Settles O11: the cycle advances over the word, and a step that executed reports the word it fetched. -/
theorem unknownWordOnlyAdvancesAndIsReported : Obligations.UnknownWordOnlyAdvancesAndIsReported := by
  unfold Obligations.UnknownWordOnlyAdvancesAndIsReported
  intro w s hrun hpc hbytes hd
  have hw : fetch s = .ok w := by rw [fetch_ok hpc, hbytes]
  have hstep := step_of_outcome (.skipsUnknown (.inl hrun) hw hd)
  rw [asRunning_of_running hrun] at hstep
  have hnot : ¬ (advance s).isHalted := asRunning_of_running hrun ▸ advance_asRunning_not_isHalted s
  refine ⟨hstep, ?_⟩
  rw [stepReport_of_step hstep, reportOf_of_executed (.inl hrun) hnot, executedReport_of_unknown hw hd]

/-- Settles O13: the step answers the state itself, and the report reads its run state. -/
theorem stepDoesNothingUnlessRunnable : Obligations.StepDoesNothingUnlessRunnable := by
  unfold Obligations.StepDoesNothingUnlessRunnable
  intro s
  refine ⟨fun hs => ?_, fun x hs => ?_, fun r hs => ?_⟩
  · have hstep := step_of_not_canStep (by simp [State.canStep, hs] : ¬ s.canStep)
    exact ⟨hstep, by rw [stepReport_of_step hstep]; simp only [reportOf, hs]⟩
  · have hstep := step_of_not_canStep (by simp [State.canStep, hs] : ¬ s.canStep)
    exact ⟨hstep, by rw [stepReport_of_step hstep]; simp only [reportOf, hs]⟩
  · have hstep := step_of_not_canStep (by simp [State.canStep, hs] : ¬ s.canStep)
    exact ⟨hstep, by rw [stepReport_of_step hstep, reportOf_of_halted hs]⟩

/-- Settles O60: the fault entry is reported by its record, and every other outcome of a runnable step by the word it fetched. -/
theorem stepReportsWhatTheStepDid : Obligations.StepReportsWhatTheStepDid := by
  unfold Obligations.StepReportsWhatTheStepDid
  intro s t hcan hstep
  refine ⟨fun r hr => by rw [stepReport_of_step hstep, reportOf_of_halted hr], fun hnot => ?_⟩
  obtain ⟨w, hw⟩ : ∃ w, fetch s = .ok w := by
    cases step_cases hstep with
    | nothing h => exact absurd hcan h
    | halts h hf => exact absurd ⟨_, takeFault_runState _ s⟩ hnot
    | skipsUnknown h hw hu => exact ⟨_, hw⟩
    | executes h hw hi hf => exact ⟨_, hw⟩
  refine ⟨w, hw, fun i hi => ?_, fun u hu => ?_⟩
  · rw [stepReport_of_step hstep, reportOf_of_executed hcan hnot, executedReport_of_known hw hi]
  · rw [stepReport_of_step hstep, reportOf_of_executed hcan hnot, executedReport_of_unknown hw hu, eq_of_decode_eq_unknown hu]

end Sys2Proof.Machine
end

section
/-!
The invariant of the machine: memory stays canonical under the two stores and the load, only the fault entry halts and its record is true of
the state it is taken in, and no outcome of a step leads into `Stopped` or `Loaded`.
-/
namespace Sys2Proof.Machine

/-! ### Memory and faults -/

/-- The stores write inside memory where they do not fault. -/
theorem effect_mem_wf {i : Instr} {s : State} (hm : Memory.wf s.mem) (hf : faultOf i s = none) : Memory.wf (effect i s).mem := by
  cases i
  case ldB x => exact setBytes_wf hm _ ((accessFault_eq_none_iff.1 hf).resolve_left (by decide))
  case ldMemVx x =>
    refine setBytes_wf hm _ ?_
    rw [length_regsThrough]
    exact (accessFault_eq_none_iff.1 hf).resolve_left (Nat.succ_ne_zero _)
  all_goals exact hm

/-- What a fault says of the state it is raised in: the clauses of `FaultRecord.Truthful` for the record to be taken. -/
def Fault.TrueOf (f : Fault) (s : State) : Prop :=
  (f = .stackOverflow → s.depth.val = 16) ∧ (f = .stackUnderflow → s.depth.val = 0) ∧ ∀ a, f = .outOfBounds a → 0xFFF < a

theorem Fault.outOfBounds_max_trueOf (a : Nat) (s : State) : (Fault.outOfBounds (max a 0x1000)).TrueOf s := by
  refine ⟨nofun, nofun, fun b hb => ?_⟩
  rw [Fault.outOfBounds.injEq] at hb
  omega

theorem Fault.trueOf_of_accessFault {a n : Nat} {f : Fault} {s : State} (h : accessFault a n = some f) : f.TrueOf s := by
  rw [(accessFault_eq_some h).2]
  exact outOfBounds_max_trueOf a s

theorem Fault.trueOf_of_faultOf {i : Instr} {f : Fault} {s : State} (h : faultOf i s = some f) : f.TrueOf s := by
  cases i
  case call nnn =>
    obtain ⟨hd, rfl⟩ := faultOf_call_eq_some h
    exact ⟨fun _ => hd, nofun, nofun⟩
  case ret =>
    obtain ⟨hd, rfl⟩ := faultOf_ret_eq_some h
    exact ⟨nofun, fun _ => hd, nofun⟩
  case drw x y n => exact trueOf_of_accessFault h
  case ldB x => exact trueOf_of_accessFault h
  case ldMemVx x => exact trueOf_of_accessFault h
  case ldVxMem x => exact trueOf_of_accessFault h
  all_goals cases h

theorem Fault.trueOf_of_fetch {f : Fault} {s : State} (h : fetch s = .error f) : f.TrueOf s := by
  by_cases hpc : 0xFFF ≤ s.pc.toNat
  · rw [fetch_error hpc, Except.error.injEq] at h
    exact h ▸ outOfBounds_max_trueOf _ s
  · rw [fetch_ok (by omega)] at h
    cases h

theorem Fault.trueOf_of_cycleFault {f : Fault} {s : State} (h : CycleFault s f) : f.TrueOf s := by
  rcases h with h | ⟨w, i, -, -, h⟩
  · exact trueOf_of_fetch h
  · exact trueOf_of_faultOf h

/-! ### The invariant, established by a run state -/

/-- A machine that runs or waits owes nothing but its memory and its program length. -/
theorem inv_of_running_or_waiting {s : State} (hm : Memory.wf s.mem) (hl : s.programLength ≤ 3584)
    (hr : s.runState = .running ∨ ∃ x, s.runState = .waitingForKey x) : s.Inv where
  memory := hm
  length := hl
  fresh h := by rcases hr with hr | ⟨x, hr⟩ <;> simp [hr] at h
  halt r h := by rcases hr with hr | ⟨x, hr⟩ <;> simp [hr] at h

/-- A fault entry keeps the invariant, and the fault being true of the state makes the record truthful. -/
theorem inv_takeFault {s : State} (hs : s.Inv) {f : Fault} (hf : f.TrueOf s) : (takeFault f s).Inv where
  memory := hs.memory
  length := hs.length
  fresh h := by simp at h
  halt r h := by
    obtain rfl : FaultRecord.mk f s.pc = r := by simpa using h
    obtain ⟨hover, hunder, hbounds⟩ := hf
    exact ⟨rfl, hover, hunder, hbounds⟩

theorem inv_step {s t : State} (hs : s.Inv) (hstep : step s = .next t) : t.Inv := by
  cases step_cases hstep with
  | nothing h => exact hs
  | halts h hf => exact inv_takeFault hs (Fault.trueOf_of_cycleFault hf)
  | skipsUnknown h hw hu => exact inv_of_running_or_waiting hs.memory hs.length (.inl rfl)
  | @executes w i h hw hi hf =>
    refine inv_of_running_or_waiting (effect_mem_wf hs.memory ((faultOf_asRunning i s).trans hf)) ?_ ?_
    · exact (effect_programLength i s.asRunning).trans_le hs.length
    · exact (effect_runState_of_running rfl).imp And.left fun ⟨x, _, hx⟩ => ⟨x, hx⟩

/-! ### The other calls of the host -/

theorem pristine_resetMachine (s : State) : (resetMachine s).Pristine := ⟨rfl, rfl, rfl, rfl, ⟨rfl, rfl⟩, rfl⟩

theorem inv_resetMachine (s : State) : (resetMachine s).Inv where
  memory := reset_memory_wf
  length := Nat.zero_le _
  fresh _ := pristine_resetMachine s
  halt _ h := by cases h

theorem loadProgram_of_stopped {bytes : List Byte} {s : State} (hstopped : s.runState = .stopped)
    (hlen : bytes.length ≤ Config.progMax) :
    loadProgram bytes s =
      (.ok, { s with mem := setBytes s.mem Config.progBase bytes, programLength := bytes.length, runState := .loaded }) := by
  rw [loadProgram, if_neg (not_not_intro hstopped), if_neg (Nat.not_lt.2 hlen)]

theorem loadProgram_of_not_stopped {s : State} (h : s.runState ≠ .stopped) (bytes : List Byte) :
    loadProgram bytes s = (.notStopped, s) := by
  rw [loadProgram, if_pos h]

theorem inv_loadProgram {s : State} (hs : s.Inv) (bytes : List Byte) : (loadProgram bytes s).2.Inv := by
  by_cases hstopped : s.runState = .stopped
  · by_cases hlen : bytes.length ≤ Config.progMax
    · rw [loadProgram_of_stopped hstopped hlen]
      obtain ⟨hregs, hindex, hpc, hdepth, htimers, hdisp⟩ := hs.fresh (.inl hstopped)
      exact {
        memory := setBytes_wf hs.memory bytes ((Nat.add_le_add_left hlen Config.progBase).trans (by decide))
        length := hlen
        fresh := fun _ => ⟨hregs, hindex, hpc, hdepth, htimers, hdisp⟩
        halt := nofun }
    · rw [loadProgram_of_tooLarge hstopped (Nat.not_le.1 hlen)]
      exact hs
  · rw [loadProgram_of_not_stopped hstopped]
    exact hs

/-- A pristine machine's timers are at 0, where a tick leaves them. -/
theorem inv_tickTimers {s : State} (hs : s.Inv) : (tickTimers s).Inv where
  memory := hs.memory
  length := hs.length
  fresh h := by
    obtain ⟨hregs, hindex, hpc, hdepth, ⟨hdt, hst⟩, hdisp⟩ := hs.fresh h
    exact ⟨hregs, hindex, hpc, hdepth, ⟨by rw [tickTimers_dt, hdt]; rfl, by rw [tickTimers_st, hst]; rfl⟩, hdisp⟩
  halt r h := by
    obtain ⟨hpc, hover, hunder, hbounds⟩ := hs.halt r h
    exact ⟨hpc, hover, hunder, hbounds⟩

/-- No clause of the invariant speaks of the key mask. -/
theorem inv_with_keypad {s : State} (hs : s.Inv) (mask : BitVec 16) : ({ s with keypad := mask } : State).Inv where
  memory := hs.memory
  length := hs.length
  fresh h := by
    obtain ⟨hregs, hindex, hpc, hdepth, htimers, hdisp⟩ := hs.fresh h
    exact ⟨hregs, hindex, hpc, hdepth, htimers, hdisp⟩
  halt r h := by
    obtain ⟨hpc, hover, hunder, hbounds⟩ := hs.halt r h
    exact ⟨hpc, hover, hunder, hbounds⟩

theorem inv_keyDown {s : State} (hs : s.Inv) (k : Key) : (keyDown k s).Inv := by
  by_cases hwait : ∃ x, s.runState = .waitingForKey x
  · obtain ⟨x, hx⟩ := hwait
    rw [keyDown_of_waiting hx]
    exact inv_of_running_or_waiting hs.memory hs.length (.inl rfl)
  · rw [keyDown_of_not_waiting fun x hx => hwait ⟨x, hx⟩]
    exact inv_with_keypad hs _

theorem exists_perform_eq_next (c : HostCall) (s : State) : ∃ t, perform c s = .next t := by
  cases c
  case step => exact exists_step_eq_next s
  all_goals exact ⟨_, rfl⟩

theorem inv_perform {c : HostCall} {s t : State} (hs : s.Inv) (h : perform c s = .next t) : t.Inv := by
  cases c
  case step => exact inv_step hs h
  all_goals cases h
  case reset => exact inv_resetMachine s
  case load bytes => exact inv_loadProgram hs bytes
  case tick => exact inv_tickTimers hs
  case keyDown k => exact inv_keyDown hs k
  case keyUp k => exact inv_with_keypad hs _

/-! ### The statements -/

/-- Settles O18: `State.reset` is its own reset. -/
theorem resetStateMeetsTheInvariant : Obligations.ResetStateMeetsTheInvariant := by
  unfold Obligations.ResetStateMeetsTheInvariant
  exact inv_resetMachine State.reset

/-- Settles O19: case by case of what a step can do. -/
theorem stepKeepsTheInvariant : Obligations.StepKeepsTheInvariant := by
  unfold Obligations.StepKeepsTheInvariant
  intro s t hs hstep
  exact inv_step hs hstep

/-- Settles O20: call by call. -/
theorem everyHostCallKeepsTheInvariant : Obligations.EveryHostCallKeepsTheInvariant := by
  unfold Obligations.EveryHostCallKeepsTheInvariant
  intro c s t hs h
  exact inv_perform hs h

/-- Settles O21: by induction on the list of calls, each of which answers a state with the invariant. -/
theorem everyScheduleRunsThroughAndKeepsTheInvariant : Obligations.EveryScheduleRunsThroughAndKeepsTheInvariant := by
  unfold Obligations.EveryScheduleRunsThroughAndKeepsTheInvariant
  intro cs
  induction cs with
  | nil => exact fun s hs => ⟨s, rfl, hs⟩
  | cons c cs ih =>
    intro s hs
    obtain ⟨t, ht⟩ := exists_perform_eq_next c s
    obtain ⟨u, hu, hinv⟩ := ih t (inv_perform hs ht)
    exact ⟨u, by rw [runCalls, ht]; exact hu, hinv⟩

end Sys2Proof.Machine
end

section
/-!
Stack slots at or above the depth (10_state.md R29): only CALL and RET touch the stack, CALL writes the slot at the depth before the depth
covers it, and RET reads the newest held slot. So no outcome of a step depends on the slots that hold nothing.
-/
namespace Sys2Proof.Machine

theorem agreeOnHeldSlots_iff {s t : State} :
    AgreeOnHeldSlots s t ↔
      ∃ st, t = { s with stack := st } ∧ ∀ k : Fin 16, k.val < s.depth.val → st[k.val] = s.stack[k.val] := by
  constructor
  · rintro ⟨ht, hslots⟩
    exact ⟨t.stack, ht, hslots⟩
  · rintro ⟨st, rfl, hslots⟩
    exact ⟨rfl, hslots⟩

theorem faultOf_with_stack (i : Instr) (s : State) (st : Vector Word 16) : faultOf i { s with stack := st } = faultOf i s := by
  cases i <;> rfl

theorem effect_with_stack {i : Instr} (s : State) (st : Vector Word 16) (hcall : ∀ a, i ≠ .call a) (hret : i ≠ .ret) :
    effect i { s with stack := st } = { effect i s with stack := st } := by
  cases i
  case call nnn => exact absurd rfl (hcall nnn)
  case ret => exact absurd rfl hret
  all_goals rfl

theorem agreeOnHeldSlots_effect {i : Instr} {s s' : State} (h : AgreeOnHeldSlots s s') (hf : faultOf i s = none) :
    AgreeOnHeldSlots (effect i s) (effect i s') := by
  obtain ⟨st, rfl, hslots⟩ := agreeOnHeldSlots_iff.1 h
  by_cases hcall : ∃ a, i = .call a
  · obtain ⟨nnn, rfl⟩ := hcall
    have hd := depth_lt_of_faultOf_call hf
    rw [effect_call_of_lt hd, effect_call_of_lt (s := { s with stack := st }) hd]
    refine ⟨rfl, fun k hk => ?_⟩
    simp only [Vector.getElem_set]
    split
    · rfl
    · exact hslots k (by simp only at hk; omega)
  by_cases hret : i = .ret
  · subst hret
    have hd := depth_pos_of_faultOf_ret hf
    have hpc := hslots ⟨s.depth.val - 1, by omega⟩ (Nat.sub_lt hd Nat.one_pos)
    refine ⟨?_, fun k hk => hslots k (Nat.lt_of_lt_of_le hk (Nat.sub_le _ _))⟩
    simp only [effect, hpc]
  · have hcall : ∀ a, i ≠ .call a := fun a ha => hcall ⟨a, ha⟩
    obtain ⟨hstack, hdepth⟩ := sameStack_effect s hcall hret
    rw [effect_with_stack s st hcall hret]
    refine ⟨rfl, fun k hk => ?_⟩
    rw [hdepth] at hk
    rw [hstack]
    exact hslots k hk

theorem agreeOnHeldSlots_takeFault {s s' : State} (h : AgreeOnHeldSlots s s') (f : Fault) :
    AgreeOnHeldSlots (takeFault f s) (takeFault f s') := by
  obtain ⟨st, rfl, hslots⟩ := agreeOnHeldSlots_iff.1 h
  exact ⟨rfl, hslots⟩

theorem agreeOnHeldSlots_advance {s s' : State} (h : AgreeOnHeldSlots s s') : AgreeOnHeldSlots (advance s) (advance s') := by
  obtain ⟨st, rfl, hslots⟩ := agreeOnHeldSlots_iff.1 h
  exact ⟨rfl, hslots⟩

theorem agreeOnHeldSlots_asRunning {s s' : State} (h : AgreeOnHeldSlots s s') : AgreeOnHeldSlots s.asRunning s'.asRunning := by
  obtain ⟨st, rfl, hslots⟩ := agreeOnHeldSlots_iff.1 h
  exact ⟨rfl, hslots⟩

/-- Settles O30: gate, fetch and fault table do not look at the slots, so the other run has the outcome of the same kind, and each kind of
outcome keeps the agreement. -/
theorem unusedStackSlotsAreNotObservable : Obligations.UnusedStackSlotsAreNotObservable := by
  unfold Obligations.UnusedStackSlotsAreNotObservable
  intro s s' t hagree hstep
  obtain ⟨st, rfl, -⟩ := agreeOnHeldSlots_iff.1 hagree
  cases step_cases hstep with
  | nothing h => exact ⟨_, step_of_outcome (.nothing h), hagree⟩
  | halts h hf =>
    simp only [CycleFault, ← faultOf_with_stack _ s st] at hf
    exact ⟨_, step_of_outcome (.halts h hf), agreeOnHeldSlots_takeFault hagree _⟩
  | skipsUnknown h hw hu =>
    exact ⟨_, step_of_outcome (.skipsUnknown h hw hu), agreeOnHeldSlots_advance (agreeOnHeldSlots_asRunning hagree)⟩
  | @executes w i h hw hi hf =>
    refine ⟨_, step_of_outcome (.executes h hw hi ((faultOf_with_stack i s st).trans hf)), ?_⟩
    exact agreeOnHeldSlots_effect (agreeOnHeldSlots_asRunning hagree) ((faultOf_asRunning i s).trans hf)

end Sys2Proof.Machine
end

section
/-!
Programs that keep their duties (70_reset_and_hazards.md R295): `pc` and the held return addresses stay even and not below `0x200`, and what
stands below `0x200` stays as it was.
-/
namespace Sys2Proof.Machine

theorem toNat_add_two {a : Word} (ha : a.toNat ≤ 0x1000) : (a + 2).toNat = a.toNat + 2 := by
  bv_omega

/-- The word after a code address, where the addition does not wrap. -/
theorem codeAddress_add_two {a : Word} (h : codeAddress a) (ha : a.toNat ≤ 0x1000) : codeAddress (a + 2) := by
  obtain ⟨heven, hlow⟩ := h
  have htwo := toNat_add_two ha
  exact ⟨by omega, by omega⟩

/-- The text of a well-formed jump or call names a code address. -/
theorem codeAddress_of_wellFormed {i : Instr} {nnn : Addr12} (h : i.wellFormed = true) (ht : i.staticTarget = some nnn) :
    codeAddress (zextAddr nnn) := by
  simp only [Instr.wellFormed, ht, targetEven, targetInProgram, Bool.and_eq_true, beq_iff_eq, decide_eq_true_eq] at h
  obtain ⟨⟨heven, hlow⟩, -⟩ := h
  exact ⟨by rw [toNat_zextAddr, heven], by rw [toNat_zextAddr]; exact hlow⟩

/-- 12 bits and 8 bits never wrap in 16. -/
theorem toNat_zextAddr_add_zextByte (nnn : Addr12) (b : Byte) : (zextAddr nnn + zextByte b).toNat = nnn.toNat + b.toNat := by
  rw [BitVec.toNat_add, toNat_zextAddr, toNat_zextByte]
  omega

theorem fetch_bound {s : State} {w : Word} (hw : fetch s = .ok w) : s.pc.toNat + 1 ≤ 0xFFF := by
  by_contra hpc
  rw [fetch_error (by omega)] at hw
  cases hw

section
variable {i : Instr} {s : State} (hcode : s.codeAddresses) (hpc : s.pc.toNat + 1 ≤ 0xFFF) (hduty : dutiful i s)
include hcode hpc

theorem codeAddress_next : codeAddress (s.pc + 2) := codeAddress_add_two hcode.1 (by omega)

theorem codeAddress_skipIf_pc (c : Bool) : codeAddress (skipIf c s).pc := by
  have hnext := codeAddress_next hcode hpc
  have htwo := toNat_add_two (a := s.pc) (by omega)
  cases c
  · exact hnext
  · exact codeAddress_add_two hnext (htwo.trans_le (by omega))

include hduty

theorem codeAddress_effect_pc : codeAddress (effect i s).pc := by
  obtain ⟨hwf, hfault, hstate⟩ := hduty
  have hnext := codeAddress_next hcode hpc
  cases i
  case jp nnn => exact codeAddress_of_wellFormed hwf rfl
  case call nnn => exact codeAddress_of_wellFormed hwf rfl
  case ret =>
    have hd := depth_pos_of_faultOf_ret hfault
    have := s.depth.isLt
    exact hcode.2 ⟨s.depth.val - 1, by omega⟩ (Nat.sub_lt hd Nat.one_pos)
  case jpV0 nnn =>
    obtain ⟨heven, hlow, -⟩ := hstate
    rw [← toNat_zextAddr_add_zextByte] at heven hlow
    exact ⟨heven, hlow⟩
  case seImm x kk => exact codeAddress_skipIf_pc hcode hpc _
  case sneImm x kk => exact codeAddress_skipIf_pc hcode hpc _
  case seReg x y => exact codeAddress_skipIf_pc hcode hpc _
  case sneReg x y => exact codeAddress_skipIf_pc hcode hpc _
  case skp x => exact codeAddress_skipIf_pc hcode hpc _
  case sknp x => exact codeAddress_skipIf_pc hcode hpc _
  all_goals exact hnext

/-- CALL pushes the address after it, RET gives up a slot, and the others leave the stack. -/
theorem codeAddresses_effect : (effect i s).codeAddresses := by
  refine ⟨codeAddress_effect_pc hcode hpc hduty, fun k hk => ?_⟩
  obtain ⟨-, hfault, -⟩ := hduty
  by_cases hcall : ∃ a, i = .call a
  · obtain ⟨nnn, rfl⟩ := hcall
    have hd := depth_lt_of_faultOf_call hfault
    simp only [effect_call_of_lt hd] at hk ⊢
    rw [Vector.getElem_set]
    split
    · exact codeAddress_next hcode hpc
    · exact hcode.2 k (by omega)
  by_cases hret : i = .ret
  · subst hret
    exact hcode.2 k (Nat.lt_of_lt_of_le hk (Nat.sub_le _ _))
  · obtain ⟨hstack, hdepth⟩ := sameStack_effect s (fun a ha => hcall ⟨a, ha⟩) hret
    rw [hdepth] at hk
    rw [hstack]
    exact hcode.2 k hk

end

/-- The duty of the stores keeps them at or above `0x200`. -/
theorem byteAt_effect_of_lt_progBase {i : Instr} {s : State} (h : stateDuty i s) {a : Nat} (ha : a < 0x200) :
    byteAt (effect i s).mem a = byteAt s.mem a := by
  cases i
  case ldB x => exact byteAt_setBytes_outside _ _ _ _ (.inl (Nat.lt_of_lt_of_le ha h))
  case ldMemVx x => exact byteAt_setBytes_outside _ _ _ _ (.inl (Nat.lt_of_lt_of_le ha h))
  all_goals rfl

theorem dutiful_asRunning {i : Instr} {s : State} (h : dutiful i s) : dutiful i s.asRunning := by
  obtain ⟨hwf, hfault, hstate⟩ := h
  refine ⟨hwf, (faultOf_asRunning i s).trans hfault, ?_⟩
  cases i <;> exact hstate

/-- The step executes the instruction it fetched, when the fault table names no fault. -/
theorem eq_effect_of_step {w : Word} {i : Instr} {s t : State} (hcan : s.canStep) (hw : fetch s = .ok w) (hi : decode w = .known i)
    (hf : faultOf i s = none) (hstep : step s = .next t) : t = effect i s.asRunning := by
  rw [step_of_outcome (.executes hcan hw hi hf), Host.Outcome.next.injEq] at hstep
  exact hstep.symm

/-- Settles O59: the step is the effect of the instruction, whose duty covers its target, its store and its faults. -/
theorem dutifulStepKeepsCodeAddressesAndTheFont : Obligations.DutifulStepKeepsCodeAddressesAndTheFont := by
  unfold Obligations.DutifulStepKeepsCodeAddressesAndTheFont
  intro w i s t hcan hcode hw hi hduty hstep
  obtain rfl := eq_effect_of_step hcan hw hi hduty.2.1 hstep
  have hduty := dutiful_asRunning hduty
  exact ⟨codeAddresses_effect (s := s.asRunning) hcode (fetch_bound hw) hduty, effect_not_isHalted rfl,
    fun a ha => byteAt_effect_of_lt_progBase hduty.2.2 ha⟩

end Sys2Proof.Machine
end

section
/-!
Encoding and decoding (30_encoding.md R92 to R98). `decode` tests the selector fields of a word, `encode` writes them, and a word is made of
its fields: so each answer of the decoder is the instruction whose format, filled with the fields of the word, is the word.
-/
namespace Sys2Proof

/-! ### A word with known selector fields, made of its other fields -/

section
variable {w : Word} {o n : Nibble} {kk : Byte} (hO : fieldO w = o)
include hO

theorem formatNNN_of_selector : formatNNN o (fieldNNN w) = w := hO ▸ formatNNN_fields w

theorem formatXKK_of_selector : formatXKK o (fieldX w) (fieldKK w) = w := hO ▸ formatXKK_fields w

theorem formatXKK_of_selectors (hKK : fieldKK w = kk) : formatXKK o (fieldX w) kk = w := hO ▸ hKK ▸ formatXKK_fields w

theorem formatXYN_of_selector : formatXYN o (fieldX w) (fieldY w) (fieldN w) = w := hO ▸ formatXYN_fields w

theorem formatXYN_of_selectors (hN : fieldN w = n) : formatXYN o (fieldX w) (fieldY w) n = w := hO ▸ hN ▸ formatXYN_fields w

end

/-! ### The word is the encoding of what it decodes to -/

theorem encode_of_decodeFamily0 {w : Word} {i : Instr} (h : decodeFamily0 w = .known i) : encode i = w := by
  unfold decodeFamily0 at h
  split at h
  next hw => cases h; exact hw.symm
  next =>
    split at h
    next hw => cases h; exact hw.symm
    next => cases h

theorem encode_of_decodeFamily8 {w : Word} {i : Instr} (hO : fieldO w = 0x8) (h : decodeFamily8 w = .known i) : encode i = w := by
  unfold decodeFamily8 at h
  split at h
  case h_10 => cases h
  all_goals
    next hN =>
      cases h
      exact formatXYN_of_selectors hO hN

theorem encode_of_decodeFamilyE {w : Word} {i : Instr} (hO : fieldO w = 0xE) (h : decodeFamilyE w = .known i) : encode i = w := by
  unfold decodeFamilyE at h
  split at h
  case h_3 => cases h
  all_goals
    next hKK =>
      cases h
      exact formatXKK_of_selectors hO hKK

theorem encode_of_decodeFamilyF {w : Word} {i : Instr} (hO : fieldO w = 0xF) (h : decodeFamilyF w = .known i) : encode i = w := by
  unfold decodeFamilyF at h
  split at h
  case h_10 => cases h
  all_goals
    next hKK =>
      cases h
      exact formatXKK_of_selectors hO hKK

theorem encode_of_ite {c : Prop} [Decidable c] {w : Word} {i j : Instr} (h : (if c then Decoded.known j else .unknown w) = .known i)
    (hj : c → encode j = w) : encode i = w := by
  split at h
  next hc => cases h; exact hj hc
  next => cases h

/-- The decoder is injective: the instruction and its fields determine the word. -/
theorem encode_of_decode {w : Word} {i : Instr} (h : decode w = .known i) : encode i = w := by
  unfold decode at h
  split at h
  case h_1 => exact encode_of_decodeFamily0 h
  case h_6 hO => exact encode_of_ite h fun hN => formatXYN_of_selectors hO hN
  case h_9 hO => exact encode_of_decodeFamily8 hO h
  case h_10 hO => exact encode_of_ite h fun hN => formatXYN_of_selectors hO hN
  case h_14 hO => cases h; exact formatXYN_of_selector hO
  case h_15 hO => exact encode_of_decodeFamilyE hO h
  case h_16 =>
    refine encode_of_decodeFamilyF ?_ h
    generalize fieldO w = o at *
    revert o
    decide
  all_goals cases h
  case h_2 hO => exact formatNNN_of_selector hO
  case h_3 hO => exact formatNNN_of_selector hO
  case h_11 hO => exact formatNNN_of_selector hO
  case h_12 hO => exact formatNNN_of_selector hO
  all_goals
    next hO => exact formatXKK_of_selector hO

/-- Settles O4: family by family of the decode algorithm, the fields read off the word fill the format of the instruction. -/
theorem encodeOfDecodeIsTheWord : Obligations.EncodeOfDecodeIsTheWord := by
  unfold Obligations.EncodeOfDecodeIsTheWord
  intro w i h
  exact encode_of_decode h

/-! ### An instruction is what its encoding decodes to -/

/-- Settles O3: the fields of a formatted word are those it was made of, and the selectors in them lead `decode` to the instruction: the
family alone, the family and the low nibble, or the family and the low byte. -/
theorem decodeOfEncodeIsTheInstruction : Obligations.DecodeOfEncodeIsTheInstruction := by
  unfold Obligations.DecodeOfEncodeIsTheInstruction
  intro i
  cases i
  case cls | ret => rfl
  case ldReg | orReg | andReg | xorReg | addReg | sub | shr | subn | shl => simp [encode, decode, decodeFamily8]
  case skp | sknp => simp [encode, decode, decodeFamilyE]
  case ldVxDT | ldVxK | ldDTVx | ldSTVx | addI | ldF | ldB | ldMemVx | ldVxMem => simp [encode, decode, decodeFamilyF]
  all_goals simp [encode, decode]

end Sys2Proof
end

section
/-!
The opcode map (30_encoding.md R95) beside the decode algorithm (R96): a row selects the words whose selector fields are those of its pattern,
and `decode` tests the same fields.
-/
namespace Sys2Proof

theorem fieldO_of_selects_F000 {r : OpRow} {w : Word} (hm : r.mask = 0xF000) (h : r.selects w = true) : fieldO w = fieldO r.pattern := by
  rw [OpRow.selects, hm, and_F000, beq_iff_eq] at h
  rw [← h, fieldO_formatXYN]

theorem fields_of_selects_F00F {r : OpRow} {w : Word} (hm : r.mask = 0xF00F) (h : r.selects w = true) :
    fieldO w = fieldO r.pattern ∧ fieldN w = fieldN r.pattern := by
  rw [OpRow.selects, hm, and_F00F, beq_iff_eq] at h
  rw [← h, fieldO_formatXYN, fieldN_formatXYN]
  exact ⟨rfl, rfl⟩

theorem fields_of_selects_F0FF {r : OpRow} {w : Word} (hm : r.mask = 0xF0FF) (h : r.selects w = true) :
    fieldO w = fieldO r.pattern ∧ fieldKK w = fieldKK r.pattern := by
  rw [OpRow.selects, hm, and_F0FF, beq_iff_eq] at h
  rw [← h, fieldO_formatXKK, fieldKK_formatXKK]
  exact ⟨rfl, rfl⟩

theorem eq_of_selects_FFFF {r : OpRow} {w : Word} (hm : r.mask = 0xFFFF) (h : r.selects w = true) : w = r.pattern := by
  rw [OpRow.selects, hm, beq_iff_eq] at h
  rw [← h]
  exact (BitVec.and_allOnes (x := w)).symm

/-- A word that the row of an instruction selects decodes to an instruction of that row. -/
theorem exists_decode_of_selects {i : Instr} {w : Word} (h : i.row.selects w = true) : ∃ j, decode w = .known j ∧ j.row = i.row := by
  cases i
  case cls | ret =>
    rw [eq_of_selects_FFFF rfl h]
    refine ⟨_, rfl, ?_⟩
    rfl
  case ldReg | orReg | andReg | xorReg | addReg | sub | shr | subn | shl | seReg | sneReg =>
    obtain ⟨hO, hN⟩ := fields_of_selects_F00F rfl h
    simp only [Instr.row, fieldO, fieldN, BitVec.ofNat_eq_ofNat, BitVec.reduceExtractLsb'] at hO hN
    simp [decode, decodeFamily8, fieldO, fieldN, hO, hN, Instr.row]
  case skp | sknp | ldVxDT | ldVxK | ldDTVx | ldSTVx | addI | ldF | ldB | ldMemVx | ldVxMem =>
    obtain ⟨hO, hKK⟩ := fields_of_selects_F0FF rfl h
    simp only [Instr.row, fieldO, fieldKK, BitVec.ofNat_eq_ofNat, BitVec.reduceExtractLsb'] at hO hKK
    simp [decode, decodeFamilyE, decodeFamilyF, fieldO, fieldKK, hO, hKK, Instr.row]
  all_goals
    have hO := fieldO_of_selects_F000 rfl h
    simp only [Instr.row, fieldO, BitVec.ofNat_eq_ofNat, BitVec.reduceExtractLsb'] at hO
    simp [decode, fieldO, hO, Instr.row]

/-- The family of Laws.EncodesInRow, for every instruction. -/
theorem encodesInRow : ∀ i : Instr, Laws.EncodesInRow.Statement i
  | .cls => Laws.EncodesInRow.cls
  | .ret => Laws.EncodesInRow.ret
  | .jp nnn => Laws.EncodesInRow.jp nnn
  | .call nnn => Laws.EncodesInRow.call nnn
  | .seImm x kk => Laws.EncodesInRow.seImm x kk
  | .sneImm x kk => Laws.EncodesInRow.sneImm x kk
  | .seReg x y => Laws.EncodesInRow.seReg x y
  | .ldImm x kk => Laws.EncodesInRow.ldImm x kk
  | .addImm x kk => Laws.EncodesInRow.addImm x kk
  | .ldReg x y => Laws.EncodesInRow.ldReg x y
  | .orReg x y => Laws.EncodesInRow.orReg x y
  | .andReg x y => Laws.EncodesInRow.andReg x y
  | .xorReg x y => Laws.EncodesInRow.xorReg x y
  | .addReg x y => Laws.EncodesInRow.addReg x y
  | .sub x y => Laws.EncodesInRow.sub x y
  | .shr x y => Laws.EncodesInRow.shr x y
  | .subn x y => Laws.EncodesInRow.subn x y
  | .shl x y => Laws.EncodesInRow.shl x y
  | .sneReg x y => Laws.EncodesInRow.sneReg x y
  | .ldI nnn => Laws.EncodesInRow.ldI nnn
  | .jpV0 nnn => Laws.EncodesInRow.jpV0 nnn
  | .rnd x kk => Laws.EncodesInRow.rnd x kk
  | .drw x y n => Laws.EncodesInRow.drw x y n
  | .skp x => Laws.EncodesInRow.skp x
  | .sknp x => Laws.EncodesInRow.sknp x
  | .ldVxDT x => Laws.EncodesInRow.ldVxDT x
  | .ldVxK x => Laws.EncodesInRow.ldVxK x
  | .ldDTVx x => Laws.EncodesInRow.ldDTVx x
  | .ldSTVx x => Laws.EncodesInRow.ldSTVx x
  | .addI x => Laws.EncodesInRow.addI x
  | .ldF x => Laws.EncodesInRow.ldF x
  | .ldB x => Laws.EncodesInRow.ldB x
  | .ldMemVx x => Laws.EncodesInRow.ldMemVx x
  | .ldVxMem x => Laws.EncodesInRow.ldVxMem x

/-- A word is selected by the row of the instruction it decodes to, whose encoding it is. -/
theorem selects_of_decode {w : Word} {i : Instr} (h : decode w = .known i) : i.row.selects w = true ∧ i.row ∈ opmap := by
  rw [← encode_of_decode h]
  exact encodesInRow i

theorem selects_iff_exists_decode {r : OpRow} (hr : r ∈ opmap) (w : Word) :
    r.selects w = true ↔ ∃ i, decode w = .known i ∧ i.row = r := by
  obtain ⟨i, -, rfl⟩ := List.mem_map.1 hr
  constructor
  · exact exists_decode_of_selects
  · rintro ⟨j, hj, hrow⟩
    rw [← hrow]
    exact (selects_of_decode hj).1

/-- Settles O5: selection and decoding agree row by row, so a word has an instruction exactly when it has a row. -/
theorem decoderAgreesWithTheOpcodeMap : Obligations.DecoderAgreesWithTheOpcodeMap := by
  unfold Obligations.DecoderAgreesWithTheOpcodeMap
  intro w
  refine ⟨fun r hr => selects_iff_exists_decode hr w, fun hu r hr => ?_, fun hno => ?_⟩
  · by_contra hsel
    obtain ⟨i, hi, -⟩ := (selects_iff_exists_decode hr w).1 (by simpa using hsel)
    rw [hu] at hi
    cases hi
  · refine (decode_answers w).resolve_left ?_
    rintro ⟨i, hi⟩
    obtain ⟨hsel, hmem⟩ := selects_of_decode hi
    rw [hno _ hmem] at hsel
    cases hsel

/-- Settles O1: each word is a literal, and `decode` computes. -/
theorem specWordsDecodeToTheirInstructions : Obligations.SpecWordsDecodeToTheirInstructions := by
  unfold Obligations.SpecWordsDecodeToTheirInstructions
  decide

end Sys2Proof
end

section
/-!
Memory as data and as bytes: the canonical form is determined by what it reads as (20_memory.md R60), the two-byte read (R64), and the stores
and the load of 43_index_memory.md over what `setBytes` and `setRegsFrom` leave at each address and register.
-/
namespace Sys2Proof.Machine

/-! ### The canonical form -/

theorem byteAt_of_not_listed {m : Memory} {a : Nat} (h : ∀ c ∈ m, c.1 ≠ a) : byteAt m a = unlistedByte a := by
  induction m with
  | nil => rfl
  | cons c rest ih =>
    rw [byteAt, if_neg (h c List.mem_cons_self), ih fun d hd => h d (List.mem_cons_of_mem c hd)]

theorem Memory.wf_cons {c : Host.Cell} {m : Memory} (h : Memory.wf (c :: m)) :
    (∀ d ∈ m, c.1 < d.1) ∧ c.2 ≠ unlistedByte c.1 ∧ Memory.wf m := by
  obtain ⟨hsorted, hcells⟩ := h
  obtain ⟨hhead, htail⟩ := List.pairwise_cons.1 hsorted
  exact ⟨hhead, (hcells c List.mem_cons_self).2, htail, fun d hd => hcells d (List.mem_cons_of_mem c hd)⟩

theorem byteAt_head (c : Host.Cell) (m : Memory) : byteAt (c :: m) c.1 = c.2 := if_pos rfl

/-- An address below all of a canonical memory's cells is not the head of another memory that reads alike. -/
theorem not_reads_alike_of_below {c : Host.Cell} {m n : Memory} (hm : Memory.wf (c :: m)) (hbelow : ∀ d ∈ n, c.1 < d.1) :
    byteAt (c :: m) c.1 ≠ byteAt n c.1 := by
  obtain ⟨-, hne, -⟩ := Memory.wf_cons hm
  rw [byteAt_head, byteAt_of_not_listed fun d hd => Nat.ne_of_gt (hbelow d hd)]
  exact hne

theorem below_of_lt_head {c d : Host.Cell} {n : Memory} (hn : Memory.wf (d :: n)) (h : c.1 < d.1) : ∀ e ∈ d :: n, c.1 < e.1 := by
  intro e he
  rcases List.mem_cons.1 he with rfl | he
  · exact h
  · exact Nat.lt_trans h ((Memory.wf_cons hn).1 e he)

/-- Under equal heads the tails read alike: at the head's address both tails list nothing. -/
theorem tails_read_alike {c : Host.Cell} {m n : Memory} (hm : Memory.wf (c :: m)) (hn : Memory.wf (c :: n))
    (h : ∀ a, byteAt (c :: m) a = byteAt (c :: n) a) (a : Nat) : byteAt m a = byteAt n a := by
  by_cases ha : c.1 = a
  · subst ha
    rw [byteAt_of_not_listed fun d hd => Nat.ne_of_gt ((Memory.wf_cons hm).1 d hd),
      byteAt_of_not_listed fun d hd => Nat.ne_of_gt ((Memory.wf_cons hn).1 d hd)]
  · have := h a
    rwa [byteAt, if_neg ha, byteAt, if_neg ha] at this

theorem eq_of_reads_alike {m n : Memory} (hm : Memory.wf m) (hn : Memory.wf n) (h : ∀ a, byteAt m a = byteAt n a) : m = n := by
  induction m generalizing n with
  | nil =>
    cases n with
    | nil => rfl
    | cons d n => exact absurd (h d.1).symm (not_reads_alike_of_below hn (by simp))
  | cons c m ih =>
    cases n with
    | nil => exact absurd (h c.1) (not_reads_alike_of_below hm (by simp))
    | cons d n =>
      rcases Nat.lt_trichotomy c.1 d.1 with hlt | heq | hgt
      · exact absurd (h c.1) (not_reads_alike_of_below hm (below_of_lt_head hn hlt))
      · have hcd : c = d := by
          have hbyte := h c.1
          rw [byteAt_head, heq, byteAt_head] at hbyte
          exact Prod.ext heq hbyte
        subst hcd
        rw [ih (Memory.wf_cons hm).2.2 (Memory.wf_cons hn).2.2 (tails_read_alike hm hn h)]
      · exact absurd (h d.1).symm (not_reads_alike_of_below hn (below_of_lt_head hm hgt))

/-- Settles O8: by induction on the lists; the lower of two different heads would be read in one memory and unlisted in the other. -/
theorem canonicalMemoriesReadingAlikeAreEqual : Obligations.CanonicalMemoriesReadingAlikeAreEqual := by
  unfold Obligations.CanonicalMemoriesReadingAlikeAreEqual
  intro m n hm hn h
  exact eq_of_reads_alike hm hn h

/-! ### The two-byte read -/

/-- Settles O7: the high byte stands at the lower address, and the lowest missing address is `a` or the one after the last. -/
theorem wordReadIsBigEndian : Obligations.WordReadIsBigEndian := by
  unfold Obligations.WordReadIsBigEndian
  intro a s
  refine ⟨fun h => ⟨_, readWord_ok (by omega) s, toNat_append_mul _ _⟩, fun h => ?_⟩
  rw [readWord_error (by omega), Except.error.injEq, Fault.outOfBounds.injEq]
  split <;> omega

/-! ### The frame of a store -/

theorem storeFrame_advance_with_mem (m : Memory) (s : State) : StoreFrame s (advance { s with mem := m }) where
  regs _ := rfl
  index := advance_i _
  stack := ⟨advance_stack _, advance_depth _⟩
  timers := ⟨advance_dt _, advance_st _⟩
  display _ _ := by rw [advance_disp]
  host := ⟨advance_keypad _, advance_programLength _, advance_draws _⟩
  run := advance_runState _

theorem sameMemoryOutside_advance_setBytes (a : Nat) (bs : List Byte) (s : State) :
    SameMemoryOutside a bs.length s (advance { s with mem := setBytes s.mem a bs }) :=
  fun k hk => byteAt_setBytes_outside s.mem a k bs hk

/-- The digits of a byte as numbers: none is above 9, so none is cut. -/
theorem toNat_bcdDigits (b : Byte) (j : Nat) (hj : j < 3) :
    ((bcdDigits b)[j]'hj).toNat = [b.toNat / 100, b.toNat / 10 % 10, b.toNat % 10][j] := by
  have := b.isLt
  match j, hj with
  | 0, _ => exact Nat.mod_eq_of_lt (by omega)
  | 1, _ => exact Nat.mod_eq_of_lt (by omega)
  | 2, _ => exact Nat.mod_eq_of_lt (by omega)

theorem byteAt_setBytes_bcdDigits (m : Memory) (a : Nat) (b : Byte) (j : Nat) (hj : j < 3) :
    (byteAt (setBytes m a (bcdDigits b)) (a + j)).toNat = [b.toNat / 100, b.toNat / 10 % 10, b.toNat % 10][j] := by
  rw [byteAt_setBytes_inside m a j (bcdDigits b) hj, toNat_bcdDigits b j hj]

/-- Settles O49: the three bytes stored are the three digits, and the store is the effect that the fault table allows. -/
theorem bcdStoresThreeDigitsAtI : Obligations.BcdStoresThreeDigitsAtI := by
  unfold Obligations.BcdStoresThreeDigitsAtI
  intro x s h
  have hdigit := byteAt_setBytes_bcdDigits s.mem s.i.toNat (readV x s)
  exact ⟨_, exec_ldB_ok (by omega), hdigit 0 (by decide), hdigit 1 (by decide), hdigit 2 (by decide),
    sameMemoryOutside_advance_setBytes _ (bcdDigits (readV x s)) s, advance_pc _, storeFrame_advance_with_mem _ s⟩

theorem byteAt_setBytes_regsThrough (m : Memory) (a : Nat) {x r : Reg} (s : State) (h : r.val ≤ x.val) :
    byteAt (setBytes m a (regsThrough x s)) (a + r.val) = readV r s := by
  have hr : r.val < (regsThrough x s).length := by
    rw [length_regsThrough]
    omega
  rw [byteAt_setBytes_inside m a r.val _ hr, getElem_regsThrough]

/-- Settles O50: byte `I + k` of the store is register `k`. -/
theorem dumpStoresTheRegistersAtI : Obligations.DumpStoresTheRegistersAtI := by
  unfold Obligations.DumpStoresTheRegistersAtI
  intro x s h
  refine ⟨_, exec_ldMemVx_ok (by omega), fun r hr => byteAt_setBytes_regsThrough _ _ s hr, ?_, advance_pc _,
    storeFrame_advance_with_mem _ s⟩
  rw [← length_regsThrough x s]
  exact sameMemoryOutside_advance_setBytes _ _ s

theorem RegisterFrame.after_loadRegs {s t : State} (h : RegisterFrame s t) (bs : List Byte) : RegisterFrame s (loadRegs bs t) where
  memory a := by rw [loadRegs_mem, h.memory a]
  index := by rw [loadRegs_i, h.index]
  stack := h.stack
  timers := h.timers
  display cx cy := by rw [loadRegs_disp, h.display cx cy]
  host := h.host
  run := by rw [loadRegs_runState, h.run]

theorem readV_loadRegs_bytesFrom_of_le {x r : Reg} (h : r.val ≤ x.val) (m : Memory) (a : Nat) (s : State) :
    readV r (loadRegs (bytesFrom m a (x.val + 1)) s) = byteAt m (a + r.val) := by
  have hr : r.val < (bytesFrom m a (x.val + 1)).length := by
    rw [length_bytesFrom]
    omega
  rw [readV_loadRegs, dif_pos hr, getElem_bytesFrom]

theorem readV_loadRegs_bytesFrom_of_gt {x r : Reg} (h : x.val < r.val) (m : Memory) (a : Nat) (s : State) :
    readV r (loadRegs (bytesFrom m a (x.val + 1)) s) = readV r s := by
  have hr : ¬ r.val < (bytesFrom m a (x.val + 1)).length := by
    rw [length_bytesFrom]
    omega
  rw [readV_loadRegs, dif_neg hr]

/-- Settles O51: register `k` of the load is byte `I + k`. -/
theorem loadFillsTheRegistersFromI : Obligations.LoadFillsTheRegistersFromI := by
  unfold Obligations.LoadFillsTheRegistersFromI
  intro x s h
  exact ⟨_, exec_ldVxMem_ok (by omega), fun r hr => readV_loadRegs_bytesFrom_of_le hr _ _ s,
    fun r hr => readV_loadRegs_bytesFrom_of_gt hr _ _ s, advance_pc _, ((registerFrame_refl s).after_loadRegs _).after_advance⟩

/-! ### What a store leaves is what the next step fetches -/

theorem byteAfterDump_setBytes (x : Reg) (s : State) (k : Nat) :
    ByteAfterDump x s k (byteAt (setBytes s.mem s.i.toNat (regsThrough x s)) k) := by
  refine ⟨fun r hr hk => ?_, fun hk => byteAt_setBytes_outside _ _ _ _ ?_⟩
  · rw [hk, byteAt_setBytes_regsThrough _ _ s hr]
  · rw [length_regsThrough]
    omega

theorem byteAfterBcd_setBytes (x : Reg) (s : State) (k : Nat) :
    ByteAfterBcd x s k (byteAt (setBytes s.mem s.i.toNat (bcdDigits (readV x s))) k) := by
  have hdigit := byteAt_setBytes_bcdDigits s.mem s.i.toNat (readV x s)
  refine ⟨fun hk => ?_, fun hk => ?_, fun hk => ?_, fun hk => byteAt_setBytes_outside _ _ _ _ ?_⟩
  · rw [hk]
    exact hdigit 0 (by decide)
  · rw [hk]
    exact hdigit 1 (by decide)
  · rw [hk]
    exact hdigit 2 (by decide)
  · rw [length_bcdDigits]
    omega

/-- Settles O9: the fetch after the store reads the stored memory, byte by byte. -/
theorem storedBytesAreFetchedByTheNextStep : Obligations.StoredBytesAreFetchedByTheNextStep := by
  unfold Obligations.StoredBytesAreFetchedByTheNextStep
  intro x s hpc
  exact ⟨fun h => ⟨_, _, _, exec_ldMemVx_ok (by omega), advance_pc _, fetch_ok hpc, byteAfterDump_setBytes x s _,
      byteAfterDump_setBytes x s _⟩,
    fun h => ⟨_, _, _, exec_ldB_ok (by omega), advance_pc _, fetch_ok hpc, byteAfterBcd_setBytes x s _, byteAfterBcd_setBytes x s _⟩⟩

/-! ### Loading a program -/

/-- Settles O57: in `Stopped` the image is copied by `setBytes` from `0x200` on, and outside it nothing happens. -/
theorem loadInstallsTheImageOnlyWhenStopped : Obligations.LoadInstallsTheImageOnlyWhenStopped := by
  unfold Obligations.LoadInstallsTheImageOnlyWhenStopped
  intro bytes s
  exact ⟨fun hstopped hlen => ⟨_, loadProgram_of_stopped hstopped hlen, fun k hk => byteAt_setBytes_inside _ _ k bytes hk,
    fun k hk => byteAt_setBytes_outside _ _ k bytes hk, rfl⟩, fun hstopped => loadProgram_of_not_stopped hstopped bytes⟩

end Sys2Proof.Machine
end

section
/-!
The register instructions of 42_alu.md with a flag, R157 to R161, and RND, R162: the flagged ones are `finishFlagged` of their own result and
flag, so what that shape does to the state is said once.
-/
namespace Sys2Proof.Machine

/-! ### Result and flag -/

/-- R150 with a flag, for every instruction that ends in `finishFlagged`: the answer, the result in `V[x]` where the flag does not overwrite it,
the flag, the other registers, `pc` and the frame. `P` and `Q` are what each statement says of the result and of the flag. -/
theorem exec_writes_result_and_flag {i : Instr} {x : Reg} {b : Byte} {c : Bool} {s : State} {P Q : Byte → Prop}
    (hexec : exec i s = finishFlagged x b c s) (hP : P b) (hQ : Q (flagByte c)) :
    ∃ t, exec i s = .next t ∧ (x ≠ 15 → P (readV x t)) ∧ Q (readV 15 t) ∧
      (∀ r : Reg, r ≠ x → r ≠ 15 → readV r t = readV r s) ∧ t.pc = s.pc + 2 ∧ RegisterFrame s t := by
  refine ⟨advance (writeResultThenFlag x b c s), hexec, fun hx => ?_, ?_, fun r hx hflag => ?_, advance_pc _,
    (((registerFrame_refl s).after_writeV x b).after_writeV 15 (flagByte c)).after_advance⟩
  · rwa [readV_advance, readV_writeResultThenFlag, if_neg hx, if_pos rfl]
  · rwa [readV_flag_advance_writeResultThenFlag]
  · rw [readV_advance, readV_writeResultThenFlag, if_neg hflag, if_neg hx]

theorem exec_addReg (x y : Reg) (s : State) :
    exec (.addReg x y) s = finishFlagged x (readV x s + readV y s) (carryOut (readV x s) (readV y s)) s := rfl

theorem exec_sub (x y : Reg) (s : State) :
    exec (.sub x y) s = finishFlagged x (readV x s - readV y s) (noBorrow (readV x s) (readV y s)) s := rfl

theorem exec_subn (x y : Reg) (s : State) :
    exec (.subn x y) s = finishFlagged x (readV y s - readV x s) (noBorrow (readV y s) (readV x s)) s := rfl

theorem exec_shr (x y : Reg) (s : State) :
    exec (.shr x y) s = finishFlagged x (readV x s >>> 1) (bitOutRight (readV x s)) s := rfl

theorem exec_shl (x y : Reg) (s : State) :
    exec (.shl x y) s = finishFlagged x (readV x s <<< 1) (bitOutLeft (readV x s)) s := rfl

theorem flagByte_decide (p : Prop) [Decidable p] : flagByte (decide p) = if p then 1 else 0 := by
  simp only [flagByte, decide_eq_true_eq]

/-- Subtraction of bytes is subtraction of integers modulo 256. -/
theorem toNat_sub_eq_emod (a b : Byte) : ((a - b).toNat : Int) = (a.toNat - b.toNat : Int) % 256 := by
  rw [BitVec.toNat_sub]
  omega

/-- Settles O33: the three forms are `finishFlagged`; sum and difference of bytes are taken modulo 256, and the flag is its own test. -/
theorem addAndSubtractSetResultAndFlag : Obligations.AddAndSubtractSetResultAndFlag := by
  unfold Obligations.AddAndSubtractSetResultAndFlag
  intro x y s
  exact ⟨exec_writes_result_and_flag (P := fun b => b.toNat = _) (Q := (· = _)) (exec_addReg x y s) (BitVec.toNat_add _ _)
      (flagByte_decide _),
    exec_writes_result_and_flag (P := fun b => (b.toNat : Int) = _) (Q := (· = _)) (exec_sub x y s) (toNat_sub_eq_emod _ _)
      (flagByte_decide _),
    exec_writes_result_and_flag (P := fun b => (b.toNat : Int) = _) (Q := (· = _)) (exec_subn x y s) (toNat_sub_eq_emod _ _)
      (flagByte_decide _)⟩

theorem toNat_flagByte (c : Bool) : (flagByte c).toNat = c.toNat := by
  cases c <;> rfl

theorem toNat_bitOutRight (b : Byte) : (bitOutRight b).toNat = b.toNat % 2 := by
  rw [bitOutRight, BitVec.getLsbD, Nat.toNat_testBit, Nat.pow_zero, Nat.div_one]

theorem toNat_bitOutLeft (b : Byte) : (bitOutLeft b).toNat = b.toNat / 128 := by
  have := b.isLt
  rw [bitOutLeft, BitVec.getLsbD, Nat.toNat_testBit]
  omega

/-- Settles O34: both shifts are `finishFlagged` of `V[x]` alone, halved or doubled, and the flag is the bit that leaves. -/
theorem shiftsMoveOneBitOutIntoTheFlag : Obligations.ShiftsMoveOneBitOutIntoTheFlag := by
  unfold Obligations.ShiftsMoveOneBitOutIntoTheFlag
  intro x y s
  refine ⟨exec_writes_result_and_flag (P := fun b => b.toNat = _) (Q := fun b => b.toNat = _) (exec_shr x y s) ?_ ?_,
    exec_writes_result_and_flag (P := fun b => b.toNat = _) (Q := fun b => b.toNat = _) (exec_shl x y s) ?_ ?_⟩
  · rw [BitVec.toNat_ushiftRight, Nat.shiftRight_eq_div_pow, Nat.pow_one]
  · rw [toNat_flagByte, toNat_bitOutRight]
  · rw [BitVec.toNat_shiftLeft, Nat.shiftLeft_eq, Nat.pow_one, Nat.mul_comm]
  · rw [toNat_flagByte, toNat_bitOutLeft]

/-! ### RND -/

theorem exec_rnd (x : Reg) (kk : Byte) (s : State) : exec (.rnd x kk) s = .next (drawRandom (Config.randByte s.draws) x kk s) := rfl

/-- Settles O35: RND is a register write of the masked byte in the state with one more draw. -/
theorem rndWritesAMaskedFreeByte : Obligations.RndWritesAMaskedFreeByte := by
  unfold Obligations.RndWritesAMaskedFreeByte
  intro x kk s
  have hresult := readV_writeV_self x (Config.randByte s.draws &&& kk) { s with draws := s.draws + 1 }
  refine ⟨_, exec_rnd x kk s, hresult, fun k hk => ?_, sameRegsBut_writeV x _ { s with draws := s.draws + 1 }, drawRandom_pc _ _ _ _,
    drawRandom_draws _ _ _ _, ((registerFrame_refl _).after_writeV x _).after_advance⟩
  rw [drawRandom, readV_advance, hresult, BitVec.getLsbD_and, hk, Bool.and_false]

end Sys2Proof.Machine
end

section
/-!
Jumps, calls and returns (41_control.md R136 to R138, R143): a jump is `jumpTo` its target, a call and a return their stack operation and a
transfer.
-/
namespace Sys2Proof.Machine

/-- R135, for every instruction that only transfers control: the answer, the target as a number and the frame. -/
theorem exec_jumps_to {i : Instr} {a : Word} {n : Nat} {s : State} (hexec : exec i s = .next (jumpTo a s)) (ha : a.toNat = n) :
    ∃ t, exec i s = .next t ∧ t.pc.toNat = n ∧ ControlFrame s t ∧ SameStack s t :=
  ⟨jumpTo a s, hexec, by rw [jumpTo_pc, ha], controlFrame_jumpTo a s, sameStack_jumpTo a s⟩

theorem exec_jp (nnn : Addr12) (s : State) : exec (.jp nnn) s = .next (jumpTo (zextAddr nnn) s) := rfl

theorem exec_jpV0 (nnn : Addr12) (s : State) : exec (.jpV0 nnn) s = .next (jumpTo (zextAddr nnn + zextByte (readV 0 s)) s) := rfl

/-- Settles O36: zero-extension keeps the number of the address. -/
theorem jumpGoesToItsAddress : Obligations.JumpGoesToItsAddress := by
  unfold Obligations.JumpGoesToItsAddress
  intro nnn s
  exact exec_jumps_to (exec_jp nnn s) (toNat_zextAddr nnn)

/-- Settles O37: the sum of 12 and 8 bits fits in 16. -/
theorem jumpWithOffsetAddsV0 : Obligations.JumpWithOffsetAddsV0 := by
  unfold Obligations.JumpWithOffsetAddsV0
  intro nnn s
  exact exec_jumps_to (exec_jpV0 nnn s) (toNat_zextAddr_add_zextByte nnn _)

theorem controlFrame_with_stack (st : Vector Word 16) (d : Fin 17) (a : Word) (s : State) :
    ControlFrame s { s with stack := st, depth := d, pc := a } where
  memory _ := rfl
  regs _ := rfl
  index := rfl
  timers := ⟨rfl, rfl⟩
  display _ _ := rfl
  host := ⟨rfl, rfl, rfl⟩
  run := rfl

/-- Settles O38: with room the call is its push and its jump, and at depth 16 the fault table names StackOverflow. -/
theorem callPushesTheAddressAfterIt : Obligations.CallPushesTheAddressAfterIt := by
  unfold Obligations.CallPushesTheAddressAfterIt
  intro nnn s
  refine ⟨fun h => ⟨_, exec_call_ok h, Vector.getElem_set_self h, rfl, fun k hk => ?_, toNat_zextAddr nnn,
    controlFrame_with_stack _ _ _ s⟩, fun h => exec_of_faultOf_eq_some (if_pos h)⟩
  exact Vector.getElem_set_ne h k.isLt hk.symm

/-- Settles O39: with an address held the return is its pop, and at depth 0 the fault table names StackUnderflow. -/
theorem retPopsTheNewestAddress : Obligations.RetPopsTheNewestAddress := by
  unfold Obligations.RetPopsTheNewestAddress
  intro s
  refine ⟨fun k hk => ⟨_, exec_ret_ok (by omega), ?_, ?_, rfl, controlFrame_with_stack s.stack _ _ s⟩,
    fun h => exec_of_faultOf_eq_some (if_pos h)⟩
  · simp only [hk, Nat.add_sub_cancel]
  · simp only [hk, Nat.add_sub_cancel]

/-- Settles O40: the return pops the slot the call pushed, and no other slot was written. -/
theorem callThenRetComesBackAfterTheCall : Obligations.CallThenRetComesBackAfterTheCall := by
  unfold Obligations.CallThenRetComesBackAfterTheCall
  intro nnn s h
  refine ⟨_, _, exec_call_ok h, exec_ret_ok (Nat.succ_pos _), ?_, rfl, fun k hk => ?_, controlFrame_with_stack _ _ _ s⟩
  · exact Vector.getElem_set_self h
  · exact Vector.getElem_set_ne h k.isLt (Nat.ne_of_gt hk)

end Sys2Proof.Machine
end

section
/-!
Keys, timers and observers (45_keypad_timers.md R205 to R212; 60_exceptions.md R251 to R258), and the reset table (10_state.md R50).
-/
namespace Sys2Proof.Machine

/-! ### Key skips -/

theorem exec_skp (x : Reg) (s : State) : exec (.skp x) s = .next (skipIf (keyPressed (readV x s) s) s) := rfl

theorem exec_sknp (x : Reg) (s : State) : exec (.sknp x) s = .next (skipIf (!(keyPressed (readV x s) s)) s) := rfl

theorem keyPressed_of_key {b : Byte} {k : Key} (h : b.toNat = k.val) (s : State) : keyPressed b s = s.keypad.getLsbD k.val := by
  rw [keyPressed, h, decide_eq_true (Nat.le_of_lt_succ k.isLt), Bool.true_and]

theorem keyPressed_of_gt {b : Byte} (h : 15 < b.toNat) (s : State) : keyPressed b s = false := by
  rw [keyPressed, decide_eq_false (Nat.not_le.2 h), Bool.false_and]

/-- Settles O42: both skips test one Boolean, SKNP negated: the mask bit of a key number, and false above 15. -/
theorem keySkipsTestTheMaskBit : Obligations.KeySkipsTestTheMaskBit := by
  unfold Obligations.KeySkipsTestTheMaskBit
  intro x s
  refine ⟨_, _, exec_skp x s, controlFrame_skipIf _ s, sameStack_skipIf _ s, exec_sknp x s, controlFrame_skipIf _ s, sameStack_skipIf _ s,
    fun k hk hbit => ?_, fun k hk hbit => ?_, fun hx => ?_⟩
  · rw [keyPressed_of_key hk, hbit]
    exact ⟨rfl, rfl⟩
  · rw [keyPressed_of_key hk, hbit]
    exact ⟨rfl, rfl⟩
  · rw [keyPressed_of_gt hx]
    exact ⟨rfl, rfl⟩

/-! ### The key mask -/

theorem getLsbD_keyMask (k j : Key) : (keyMask k).getLsbD j.val = decide (j = k) := by
  have hmask : keyMask k = BitVec.twoPow 16 k.val := rfl
  rw [hmask, BitVec.getLsbD_twoPow, decide_eq_true k.isLt, Bool.true_and]
  exact decide_eq_decide.2 (by rw [Fin.ext_iff, eq_comm])

theorem keyDown_keypad (k : Key) (s : State) : (keyDown k s).keypad = s.keypad ||| keyMask k := by
  unfold keyDown
  split <;> rfl

theorem getLsbD_keyDown_keypad (k j : Key) (s : State) :
    (keyDown k s).keypad.getLsbD j.val = (decide (j = k) || s.keypad.getLsbD j.val) := by
  rw [keyDown_keypad, BitVec.getLsbD_or, getLsbD_keyMask, Bool.or_comm]

theorem getLsbD_keyUp_keypad (k j : Key) (s : State) :
    (keyUp k s).keypad.getLsbD j.val = (!(decide (j = k)) && s.keypad.getLsbD j.val) := by
  rw [keyUp_keypad, BitVec.getLsbD_and, BitVec.getLsbD_not, getLsbD_keyMask, decide_eq_true j.isLt, Bool.true_and, Bool.and_comm]

/-- Settles O46: the mask of key `k` has bit `k` alone. -/
theorem keyEventsSetAndClearTheirBit : Obligations.KeyEventsSetAndClearTheirBit := by
  unfold Obligations.KeyEventsSetAndClearTheirBit
  intro k s
  refine ⟨fun j => getLsbD_keyDown_keypad k j s, fun j => getLsbD_keyUp_keypad k j s, rfl, fun h => ?_⟩
  rw [keyDown_keypad]
  exact keyDown_of_not_waiting h

/-! ### The wait for a key -/

theorem exec_ldVxK (x : Reg) (s : State) : exec (.ldVxK x) s = .next (advance { s with runState := .waitingForKey x }) := rfl

/-- A press in a wait is a register write in the state with the new mask and `Running`. -/
theorem keyDown_eq_writeV {k : Key} {s : State} {x : Reg} (h : s.runState = .waitingForKey x) :
    keyDown k s = writeV x (BitVec.ofNat 8 k.val) { s with keypad := (keyDown k s).keypad, runState := .running } := by
  rw [keyDown_keypad]
  exact keyDown_of_waiting h

theorem toNat_keyCode (k : Key) : (BitVec.ofNat 8 k.val).toNat = k.val := by
  rw [BitVec.toNat_ofNat]
  omega

/-- Settles O44: the wait is a run state a step, a tick and a release leave alone, and a press is a register write. -/
theorem waitForKeySuspendsUntilAKeyPress : Obligations.WaitForKeySuspendsUntilAKeyPress := by
  unfold Obligations.WaitForKeySuspendsUntilAKeyPress
  intro x s
  refine ⟨⟨_, exec_ldVxK x s, rfl, advance_pc _, controlFrame_advance _, rfl, rfl⟩, fun hwait => ⟨?_, hwait, fun _ => rfl, fun k =>
    ⟨hwait, fun _ => rfl, ?_, ?_, ?_, fun j => getLsbD_keyDown_keypad k j s, ?_, ?_⟩⟩⟩
  · exact step_of_not_canStep (by simp [State.canStep, hwait])
  · rw [keyDown_eq_writeV hwait, writeV_runState]
  · rw [keyDown_eq_writeV hwait, readV_writeV_self, toNat_keyCode]
  · rw [keyDown_eq_writeV hwait]
    exact sameRegsBut_writeV x _ _
  · rw [keyDown_eq_writeV hwait, writeV_pc]
  · have hframe := (registerFrame_refl { s with keypad := (keyDown k s).keypad, runState := .running }).after_writeV x (BitVec.ofNat 8 k.val)
    rwa [← keyDown_eq_writeV hwait] at hframe

/-! ### Timers -/

theorem toNat_countDown (t : Byte) : (countDown t).toNat = t.toNat - 1 := by
  unfold countDown
  split
  next h => rw [h]; rfl
  next h => bv_omega

/-- Settles O45: each timer is counted down by itself. -/
theorem tickCountsEachTimerDown : Obligations.TickCountsEachTimerDown := by
  unfold Obligations.TickCountsEachTimerDown
  intro s
  exact ⟨toNat_countDown s.dt, toNat_countDown s.st, rfl⟩

/-! ### The glyph address -/

theorem exec_ldF (x : Reg) (s : State) : exec (.ldF x) s = .next (advance (writeI (5 * zextByte (readV x s)) s)) := rfl

/-- Five times a byte fits in 16 bits. -/
theorem toNat_five_mul_zextByte (b : Byte) : (5 * zextByte b).toNat = 5 * b.toNat := by
  have := b.isLt
  rw [BitVec.toNat_mul, toNat_zextByte]
  exact Nat.mod_eq_of_lt (show 5 * b.toNat < 65536 by omega)

/-- Settles O48: a write of `I`. -/
theorem glyphAddressIsFiveTimesTheRegister : Obligations.GlyphAddressIsFiveTimesTheRegister := by
  unfold Obligations.GlyphAddressIsFiveTimesTheRegister
  intro x s
  exact exec_writes_only_i (exec_ldF x s) (toNat_five_mul_zextByte _)

/-! ### Observers and reset -/

theorem wrapCol_add_64 (k : Nat) : wrapCol (k + 64) = wrapCol k := Fin.ext (Nat.add_mod_right k 64)

theorem wrapRow_add_32 (k : Nat) : wrapRow (k + 32) = wrapRow k := Fin.ext (Nat.add_mod_right k 32)

theorem soundActive_iff (s : State) : soundActive s = true ↔ s.st ≠ 0 := by
  rw [soundActive, decide_eq_true_eq, Nat.pos_iff_ne_zero]
  exact BitVec.toNat_ne_iff_ne (y := 0)

/-- Settles O55: the coordinates are reduced by `wrapCol` and `wrapRow`. -/
theorem observersReadTheCurrentState : Obligations.ObserversReadTheCurrentState := by
  unfold Obligations.ObserversReadTheCurrentState
  intro cx cy s
  exact ⟨rfl, by rw [pixel, wrapCol_add_64, wrapRow_add_32, pixel], soundActive_iff s⟩

theorem unlistedByte_of_le {a : Nat} (h : 80 ≤ a) : unlistedByte a = 0 := by
  rw [unlistedByte, List.getD_eq_default _ _ h]

/-- Settles O56: every field is that of `State.reset`, and an empty memory reads as the font table. -/
theorem resetGivesTheResetTable : Obligations.ResetGivesTheResetTable := by
  unfold Obligations.ResetGivesTheResetTable
  intro s
  refine ⟨rfl, fun r => ?_, rfl, rfl, rfl, rfl, rfl, rfl, pixelAt_blankDisplay, rfl, fun k => ?_, fun a _ => rfl,
    fun a ha => unlistedByte_of_le ha⟩
  · exact Vector.getElem_replicate r.isLt
  · exact Vector.getElem_replicate k.isLt

end Sys2Proof.Machine
end

section
/-!
Drawing (44_display.md R192 to R197). `Draws C p q` says what drawing the pixels of a set `C` does to a canvas: it flips exactly these and
reports whether one was set. One plotted bit draws one pixel at most, disjoint drawings compose, and the loops over columns and rows are
compositions of disjoint drawings because a sprite is narrower and lower than the screen; so the loops draw what the sprite covers.
-/
namespace Sys2Proof.Machine

/-- A set of pixels. -/
abbrev PixelSet := Fin 64 → Fin 32 → Prop

/-- The canvas `q` is `p` with exactly the pixels of `C` flipped, their collision added to that of `p`. -/
structure Draws (C : PixelSet) (p q : Canvas) : Prop where
  flipped : ∀ cx cy, C cx cy → pixelAt q.disp cx cy = !(pixelAt p.disp cx cy)
  kept : ∀ cx cy, ¬ C cx cy → pixelAt q.disp cx cy = pixelAt p.disp cx cy
  collided : q.collided = true ↔ p.collided = true ∨ ∃ cx cy, C cx cy ∧ pixelAt p.disp cx cy = true

theorem Draws.congr {C D : PixelSet} {p q : Canvas} (h : Draws C p q) (hCD : ∀ cx cy, C cx cy ↔ D cx cy) : Draws D p q := by
  obtain rfl : C = D := funext fun cx => funext fun cy => propext (hCD cx cy)
  exact h

theorem Draws.nothing (p : Canvas) : Draws (fun _ _ => False) p p where
  flipped _ _ h := h.elim
  kept _ _ _ := rfl
  collided := by simp

/-- Disjoint drawings compose: the second sees its pixels as the first found them. -/
theorem Draws.trans {C D : PixelSet} {p q r : Canvas} (hC : Draws C p q) (hD : Draws D q r)
    (hdisjoint : ∀ cx cy, C cx cy → ¬ D cx cy) : Draws (fun cx cy => C cx cy ∨ D cx cy) p r where
  flipped cx cy h := by
    rcases h with h | h
    · rw [hD.kept cx cy (hdisjoint cx cy h), hC.flipped cx cy h]
    · rw [hD.flipped cx cy h, hC.kept cx cy fun hc => hdisjoint cx cy hc h]
  kept cx cy h := by
    obtain ⟨hc, hd⟩ := not_or.1 h
    rw [hD.kept cx cy hd, hC.kept cx cy hc]
  collided := by
    have hsame : ∀ cx cy, D cx cy → pixelAt q.disp cx cy = pixelAt p.disp cx cy := fun cx cy hd =>
      hC.kept cx cy fun hc => hdisjoint cx cy hc hd
    have hhit : (∃ cx cy, D cx cy ∧ pixelAt q.disp cx cy = true) ↔ ∃ cx cy, D cx cy ∧ pixelAt p.disp cx cy = true :=
      exists_congr fun cx => exists_congr fun cy => and_congr_right fun hd => by rw [hsame cx cy hd]
    rw [hD.collided, hC.collided, hhit, or_assoc]
    simp only [or_and_right, exists_or]

theorem draws_plotBit (bit : Bool) (cx : Fin 64) (cy : Fin 32) (p : Canvas) :
    Draws (fun cx' cy' => bit = true ∧ cx' = cx ∧ cy' = cy) p (plotBit bit cx cy p) := by
  cases bit with
  | false => exact (Draws.nothing p).congr (by simp)
  | true =>
    refine ⟨?_, fun cx' cy' h => ?_, by simp [collided_plotBit]⟩
    · rintro _ _ ⟨-, rfl, rfl⟩
      simp [pixelAt_plotBit]
    · have h : ¬ (cx' = cx ∧ cy' = cy) := fun hc => h ⟨rfl, hc⟩
      rw [pixelAt_plotBit, Bool.true_and, ← Bool.decide_and, decide_eq_false h, Bool.xor_false]

/-! ### The loops -/

/-- The pixels of the bits `0` to `k - 1` of one sprite row, in the loop's own terms: bit `j` stands in column `7 - j` of the sprite. -/
def rowPixels (x0 : Nat) (row : Fin 32) (b : Byte) (k : Nat) : PixelSet := fun cx cy =>
  ∃ j < k, b.getLsbD j = true ∧ cx = wrapCol (x0 + (7 - j)) ∧ cy = row

/-- The pixels of the rows from row `r` on. -/
def spritePixels (x0 y0 r : Nat) (bs : List Byte) : PixelSet := fun cx cy =>
  ∃ k, ∃ h : k < bs.length, rowPixels x0 (wrapRow (y0 + (r + k))) bs[k] 8 cx cy

theorem wrapCol_add_ne {x0 a b : Nat} (hne : a ≠ b) (ha : a < 64) (hb : b < 64) : wrapCol (x0 + a) ≠ wrapCol (x0 + b) := by
  simp only [wrapCol, ne_eq, Fin.mk.injEq]
  omega

theorem wrapRow_add_ne {y0 a b : Nat} (hlt : a < b) (hb : b < a + 32) : wrapRow (y0 + a) ≠ wrapRow (y0 + b) := by
  simp only [wrapRow, ne_eq, Fin.mk.injEq]
  omega

/-- A sprite row is 8 pixels, which stay apart on a screen of 64 columns. -/
theorem draws_blitCols (x0 : Nat) (row : Fin 32) (b : Byte) {k : Nat} (hk : k ≤ 8) (p : Canvas) :
    Draws (rowPixels x0 row b k) p (blitCols x0 row b k p) := by
  induction k generalizing p with
  | zero => exact (Draws.nothing p).congr (by simp [rowPixels])
  | succ k ih =>
    refine ((draws_plotBit (b.getLsbD k) _ row p).trans (ih (by omega) _) ?_).congr fun cx cy => ?_
    · rintro cx cy ⟨-, hcx, -⟩ ⟨j, hj, -, hcx', -⟩
      exact wrapCol_add_ne (by omega) (by omega) (by omega) (hcx.symm.trans hcx')
    · simp only [rowPixels, Nat.exists_lt_succ_right]
      exact or_comm

theorem spritePixels_cons (x0 y0 r : Nat) (b : Byte) (bs : List Byte) (cx : Fin 64) (cy : Fin 32) :
    spritePixels x0 y0 r (b :: bs) cx cy ↔
      rowPixels x0 (wrapRow (y0 + r)) b 8 cx cy ∨ spritePixels x0 y0 (r + 1) bs cx cy := by
  constructor
  · rintro ⟨k, hk, h⟩
    cases k with
    | zero => exact .inl h
    | succ k => exact .inr ⟨k, by simpa using hk, by simpa [Nat.add_assoc, Nat.add_comm 1 k] using h⟩
  · rintro (h | ⟨k, hk, h⟩)
    · exact ⟨0, by simp, h⟩
    · exact ⟨k + 1, by simpa using hk, by simpa [Nat.add_assoc, Nat.add_comm 1 k] using h⟩

/-- A sprite of at most 32 rows keeps its rows apart. -/
theorem draws_blitRows (x0 y0 r : Nat) {bs : List Byte} (hbs : bs.length ≤ 32) (p : Canvas) :
    Draws (spritePixels x0 y0 r bs) p (blitRows x0 y0 r bs p) := by
  induction bs generalizing r p with
  | nil => exact (Draws.nothing p).congr (by simp [spritePixels])
  | cons b bs ih =>
    rw [List.length_cons] at hbs
    refine ((draws_blitCols x0 _ b (Nat.le_refl 8) p).trans (ih (r + 1) (by omega) _) ?_).congr fun cx cy =>
      (spritePixels_cons x0 y0 r b bs cx cy).symm
    rintro cx cy ⟨-, -, -, -, hcy⟩ ⟨k, hk, -, -, -, -, hcy'⟩
    exact wrapRow_add_ne (by omega) (by omega) (hcy.symm.trans hcy')

/-! ### What a sprite covers -/

/-- Bit `j` of the loop is column `7 - j` of 44_display.md R197. -/
theorem spritePixels_bytesFrom_iff (x y : Byte) (n : Nat) (s : State) (cx : Fin 64) (cy : Fin 32) :
    spritePixels (x.toNat % 64) (y.toNat % 32) 0 (bytesFrom s.mem s.i.toNat n) cx cy ↔ spriteCovers x y n s cx cy := by
  simp only [spritePixels, rowPixels, spriteCovers, length_bytesFrom, getElem_bytesFrom, exists_prop, wrapCol, wrapRow, Fin.ext_iff,
    Nat.zero_add]
  refine exists_congr fun r => and_congr_right fun _ => ⟨?_, ?_⟩
  · rintro ⟨j, hj, hbit, hcx, hcy⟩
    exact ⟨7 - j, by omega, hcx, hcy, by rwa [show 7 - (7 - j) = j by omega]⟩
  · rintro ⟨c, hc, hcx, hcy, hbit⟩
    exact ⟨7 - c, by omega, hbit, by rwa [show 7 - (7 - c) = c by omega], hcy⟩

/-- The loop that draws row by row and bit by bit draws the pixels the sprite covers. -/
theorem draws_blit (x y : Byte) {n : Nat} (hn : n ≤ 32) (s : State) :
    Draws (spriteCovers x y n s) ⟨s.disp, false⟩ (blit x y (bytesFrom s.mem s.i.toNat n) s.disp) :=
  (draws_blitRows _ _ 0 ((length_bytesFrom _ _ n).trans_le hn) _).congr (spritePixels_bytesFrom_iff x y n s)

/-! ### The instruction -/

theorem displayFrame_advance_drawSprite (x y : Byte) (rows : List Byte) (s : State) :
    DisplayFrame s (advance (drawSprite x y rows s)) where
  memory _ := by rw [advance_mem, drawSprite_mem]
  index := advance_i _
  stack := ⟨advance_stack _, advance_depth _⟩
  timers := ⟨advance_dt _, advance_st _⟩
  host := ⟨advance_keypad _, advance_programLength _, advance_draws _⟩
  run := advance_runState _

theorem sameRegsBut_drawSprite (x y : Byte) (rows : List Byte) (s : State) : SameRegsBut 15 s (drawSprite x y rows s) := fun r hr => by
  rw [drawSprite, readV_setFlag, if_neg hr]
  rfl

/-- What a draw leaves: the canvas, with its collision in `VF`, and the frame. -/
structure DrawResult (x y : Byte) (n : Nat) (s t : State) : Prop where
  canvas : ∃ c, Draws (spriteCovers x y n s) ⟨s.disp, false⟩ ⟨t.disp, c⟩ ∧ readV 15 t = flagByte c
  regs : SameRegsBut 15 s t
  pc : t.pc = s.pc + 2
  frame : DisplayFrame s t

theorem exec_drw_draws (x y : Reg) {n : Nibble} {s : State} (h : n.toNat = 0 ∨ s.i.toNat + n.toNat - 1 ≤ 0xFFF) :
    ∃ t, exec (.drw x y n) s = .next t ∧ DrawResult (readV x s) (readV y s) n.toNat s t := by
  have := n.isLt
  exact ⟨_, exec_drw_ok (by omega), ⟨_, draws_blit _ _ (by omega) s, readV_flag_drawSprite _ _ _ s⟩, sameRegsBut_drawSprite _ _ _ s,
    advance_pc _, displayFrame_advance_drawSprite _ _ _ s⟩

theorem flagByte_eq_one_iff (c : Bool) : flagByte c = 1 ↔ c = true := by
  cases c <;> decide

/-- `VF` after a draw is its collision. -/
theorem DrawResult.flag_eq_one_iff {x y : Byte} {n : Nat} {s t : State} (h : DrawResult x y n s t) :
    readV 15 t = 1 ↔ spriteCollides x y n s := by
  obtain ⟨c, hdraws, hflag⟩ := h.canvas
  rw [hflag, flagByte_eq_one_iff, hdraws.collided]
  simp [spriteCollides]

theorem DrawResult.flag_eq_zero {x y : Byte} {n : Nat} {s t : State} (h : DrawResult x y n s t) (hno : ¬ spriteCollides x y n s) :
    readV 15 t = 0 := by
  obtain ⟨c, -, hflag⟩ := h.canvas
  rw [← h.flag_eq_one_iff, hflag] at hno
  rw [hflag]
  exact (flagByte_eq_zero_or_one c).resolve_right hno

/-- Settles O53: the loops draw the covered pixels, and the flag is the last write. -/
theorem drawXorsTheSpriteAndFlagsCollision : Obligations.DrawXorsTheSpriteAndFlagsCollision := by
  unfold Obligations.DrawXorsTheSpriteAndFlagsCollision
  intro x y n s h
  obtain ⟨t, hexec, hdraw⟩ := exec_drw_draws x y h
  obtain ⟨c, hdraws, -⟩ := hdraw.canvas
  exact ⟨t, hexec, hdraws.kept, hdraws.flipped, hdraw.flag_eq_one_iff.2, hdraw.flag_eq_zero, hdraw.regs, hdraw.pc, hdraw.frame⟩

/-! ### Drawing twice -/

/-- The sprite is the one in memory at `I`, which a draw leaves. -/
theorem spriteCovers_of_frame {s t : State} (h : DisplayFrame s t) (x y : Byte) (n : Nat) : spriteCovers x y n t = spriteCovers x y n s := by
  funext cx cy
  simp only [spriteCovers, h.index, h.memory _]

/-- Two draws of one set of pixels give the old pixels back. -/
theorem Draws.twice {C : PixelSet} {p q q' r : Canvas} (hpq : Draws C p q) (hqr : Draws C q' r) (hq : q'.disp = q.disp) (cx : Fin 64)
    (cy : Fin 32) : pixelAt r.disp cx cy = pixelAt p.disp cx cy := by
  by_cases hc : C cx cy
  · rw [hqr.flipped cx cy hc, hq, hpq.flipped cx cy hc, Bool.not_not]
  · rw [hqr.kept cx cy hc, hq, hpq.kept cx cy hc]

/-- Settles O54: the second draw has the sprite of the first; at the same position it flips the same pixels back and collides where the first
found a clear one. -/
theorem drawingTwiceRestoresTheDisplay : Obligations.DrawingTwiceRestoresTheDisplay := by
  unfold Obligations.DrawingTwiceRestoresTheDisplay
  intro x y n s h
  obtain ⟨t, hexec, hfirst⟩ := exec_drw_draws x y h
  obtain ⟨u, hexec', hsecond⟩ := exec_drw_draws x y (n := n) (s := t) (by rwa [hfirst.frame.index])
  obtain ⟨c, hdraws, -⟩ := hfirst.canvas
  obtain ⟨c', hdraws', -⟩ := hsecond.canvas
  have hflag := hsecond.flag_eq_one_iff
  rw [spriteCollides] at hflag
  rw [spriteCovers_of_frame hfirst.frame] at hdraws' hflag
  refine ⟨t, u, hexec, hexec', fun hx hy => ?_, hdraws'.kept, hdraws'.flipped⟩
  rw [hfirst.regs x hx, hfirst.regs y hy] at hdraws' hflag
  refine ⟨fun cx cy => hdraws.twice hdraws' rfl cx cy, ?_⟩
  rw [hflag]
  refine exists_congr fun cx => exists_congr fun cy => and_congr_right fun hc => ?_
  rw [hdraws.flipped cx cy hc, Bool.not_eq_true']

end Sys2Proof.Machine
end
